-- ==== Sys2Proof/Word.lean ====
section
/-! DEFINITION. The bit-vector types of the block (00_scope.md R5, R7) and sign-magnitude's `SM`. -/

namespace Sys2Proof

/-- A full word, and the contents of one memory cell: 36 bits (R28, R60). -/
abbrev Word36 := BitVec 36

/-- A half-word, and an instruction: 18 bits (R63, R67). -/
abbrev Half18 := BitVec 18

/-- A 12-bit quantity: the instruction counter, an address field, a half-word address (R5, R21). -/
abbrev Addr12 := BitVec 12

/-- The index of a memory cell, 0..2047: a half-word address without its lowest bit (R40). -/
abbrev CellIx := BitVec 11

/-- The opcode field OP: 5 bits (R67). -/
abbrev OpCode := BitVec 5

/-- The accumulator's magnitude: 35 bits (R22). -/
abbrev Mag35 := BitVec 35

/-- One 64-bit word container of the host's image (R230). -/
abbrev Container := BitVec 64

/-- `SM(s, m)` of R7: the integer that a sign bit and a magnitude denote; minus zero denotes 0. -/
def SM (s : Bool) (m : Nat) : Int := if s then -(m : Int) else (m : Int)

end Sys2Proof
end

