-- ==== Sys2Proof/Machine/State.lean ====
section
/-! DEFINITION. The block's whole state (10_state.md), its reset value, and the reasons a step can
stop. -/

namespace Sys2Proof.Machine

/-- The accumulator ACC (R22): a sign bit, true = negative, and a 35-bit magnitude. -/
structure Accumulator where
  sign : Bool
  mag  : Mag35
  deriving DecidableEq, Repr

/-- The run state RUN (R25). -/
inductive RunState where
  | running
  | halted
  | faulted
  deriving DecidableEq, Repr

/-- FAULT.kind (R26, R204). Code 3 is never written, so it has no constructor (log 12). -/
inductive FaultKind where
  | none
  | invalidOpcode
  | unimplementedOperation
  deriving DecidableEq, Repr

/-- The fault register FAULT (R26). `atSlot` is the field the spec calls `at`. -/
structure FaultRecord where
  kind   : FaultKind
  op     : OpCode
  atSlot : Addr12
  word   : Half18
  deriving DecidableEq, Repr

/-- FAULT with every field 0, its value after RESET (R26, R30). -/
def FaultRecord.clear : FaultRecord := { kind := .none, op := 0#5, atSlot := 0#12, word := 0#18 }

/-- The contents of MEM (R28) as (cell index, 36-bit word) pairs in the one canonical form that
`Memory.wf` states; what an unlisted cell reads as is `Memory.unlisted` (log 1). -/
abbrev Memory := List (Nat × Word36)

/-- The state of the block: exactly 10_state.md's aggregate. -/
structure State where
  mem   : Memory
  acc   : Accumulator
  ov    : Bool
  ic    : Addr12
  run   : RunState
  fault : FaultRecord
  deriving DecidableEq, Repr

/-- The machine right after RESET with no image (R30): IC 0, Running, ACC +0, FAULT clear. OV_INIT and
MEM_INIT are OPEN in the spec: here OV is false (DESIGN CHOICE, unsafe, log 3) and every cell holds 0
(DESIGN CHOICE, unsafe, log 2). `State.hostReset` is RESET for every image and every value of both. -/
def State.reset : State :=
  { mem := [], acc := { sign := false, mag := 0#35 }, ov := false, ic := 0#12, run := .running
    fault := FaultRecord.clear }

/-- Why a step could stop without a next state. There is no constructor: the spec's two error
conditions are taken as next states with RUN = Faulted (R201), and no access can fail (R47), so no
step of this machine stops (log 7). -/
inductive Fault where
  deriving DecidableEq, Repr

/-- Why an instruction has no meaning. -/
inductive Refusal where
  /-- Raised by `exec` for an instruction that has no meaning yet; safe. No arm raises it now. -/
  | notModelled (mnemonic : String)
  deriving DecidableEq, Repr

end Sys2Proof.Machine
end

