-- ==== Sys2Proof/Machine/Flags.lean ====
section
/-! DEFINITION. The one flag computation of the block: OV from the P/Q pair (R24, R112). -/

namespace Sys2Proof.Machine

/-- P_BIT, the position of P in the accumulator magnitude (R24). -/
def pBit : Nat := 18

/-- Q_BIT, the position of Q in the accumulator magnitude (R24). -/
def qBit : Nat := 19

/-- The pair (P, Q) of a magnitude (R24). -/
def pqPair (mag : Mag35) : Bool × Bool := (mag.getLsbD pBit, mag.getLsbD qBit)

/-- OV after an add: true iff the P/Q pair differs before and after (R112). -/
def overflow (before after : Mag35) : Bool := decide (pqPair before ≠ pqPair after)

end Sys2Proof.Machine
end

