-- ==== Sys2Proof/Config.lean ====
section
/-! DEFINITION. What an implementation fixes: the operation names and the OPEN parameter OPCODE_MAP
(R5, R68). Its default value is `Sys2Proof.defaultOpcodeMap` in Decode.lean. The other OPEN
parameters, MEM_INIT and OV_INIT, are arguments of `Sys2Proof.Machine.State.hostReset`; the host's
STEP_BUDGET is the argument of `Sys2Proof.Machine.runBudget`. -/

namespace Sys2Proof

/-- The operation names of ISA-S, in the order of R68's table. -/
inductive Op where
  | stop | tr | trOv | trPlus | trZero | sub | rSub | subAb
  | noOp | add | rAdd | addAb | store | storeA | storeMq | loadMq
  | mpy | mpyR | div | round | lLeft | lRight | aLeft | aRight
  | read | readB | write | writeEf | rewind | setDr | sense | copy
  deriving DecidableEq, Repr

/-- Every operation, in the order of R68's table. -/
def Op.all : List Op :=
  [.stop, .tr, .trOv, .trPlus, .trZero, .sub, .rSub, .subAb] ++
  [.noOp, .add, .rAdd, .addAb, .store, .storeA, .storeMq, .loadMq] ++
  [.mpy, .mpyR, .div, .round, .lLeft, .lRight, .aLeft, .aRight] ++
  [.read, .readB, .write, .writeEf, .rewind, .setDr, .sense, .copy]

/-- The seven operations that have a handler of their own (R3, R94). -/
def Op.implemented : Op → Bool
  | .stop | .tr | .add | .rAdd | .store | .aLeft | .aRight => true
  | .trOv | .trPlus | .trZero | .sub | .rSub | .subAb | .noOp | .addAb | .storeA | .storeMq
  | .loadMq | .mpy | .mpyR | .div | .round | .lLeft | .lRight | .read | .readB | .write
  | .writeEf | .rewind | .setDr | .sense | .copy => false

/-- OPCODE_MAP (R68): a partial map from the 32 values of OP to operations. An argument of the
decoder, the encoder and the step, never part of the state (log 4). -/
abbrev OpcodeMap := OpCode → Option Op

/-- The 32 values of the OP field. -/
def OpCode.all : List OpCode := (List.range 32).map (BitVec.ofNat 5)

/-- OPCODE_MAP's inverse, as R70's `encode` uses it: the (lowest) OP value mapped to `op`. -/
def OpcodeMap.codeOf (m : OpcodeMap) (op : Op) : Option OpCode :=
  OpCode.all.find? (fun c => decide (m c = some op))

end Sys2Proof
end

