-- ==== Sys2Proof/Syntax.lean ====
section
/-! DEFINITION. The instructions of ISA-S: one constructor per row of the opcode table, each with the
one format's two operand fields S and ADDR (R67, R75). -/

namespace Sys2Proof

/-- A decoded instruction: the operation with its sign bit S and 12-bit address field ADDR (R67). -/
inductive Instr where
  | stop    (sign : Bool) (addr : Addr12)
  | tr      (sign : Bool) (addr : Addr12)
  | trOv    (sign : Bool) (addr : Addr12)
  | trPlus  (sign : Bool) (addr : Addr12)
  | trZero  (sign : Bool) (addr : Addr12)
  | sub     (sign : Bool) (addr : Addr12)
  | rSub    (sign : Bool) (addr : Addr12)
  | subAb   (sign : Bool) (addr : Addr12)
  | noOp    (sign : Bool) (addr : Addr12)
  | add     (sign : Bool) (addr : Addr12)
  | rAdd    (sign : Bool) (addr : Addr12)
  | addAb   (sign : Bool) (addr : Addr12)
  | store   (sign : Bool) (addr : Addr12)
  | storeA  (sign : Bool) (addr : Addr12)
  | storeMq (sign : Bool) (addr : Addr12)
  | loadMq  (sign : Bool) (addr : Addr12)
  | mpy     (sign : Bool) (addr : Addr12)
  | mpyR    (sign : Bool) (addr : Addr12)
  | div     (sign : Bool) (addr : Addr12)
  | round   (sign : Bool) (addr : Addr12)
  | lLeft   (sign : Bool) (addr : Addr12)
  | lRight  (sign : Bool) (addr : Addr12)
  | aLeft   (sign : Bool) (addr : Addr12)
  | aRight  (sign : Bool) (addr : Addr12)
  | read    (sign : Bool) (addr : Addr12)
  | readB   (sign : Bool) (addr : Addr12)
  | write   (sign : Bool) (addr : Addr12)
  | writeEf (sign : Bool) (addr : Addr12)
  | rewind  (sign : Bool) (addr : Addr12)
  | setDr   (sign : Bool) (addr : Addr12)
  | sense   (sign : Bool) (addr : Addr12)
  | copy    (sign : Bool) (addr : Addr12)
  deriving DecidableEq, Repr

/-- The instruction of an operation and its two fields (R69's `Instruction{ … }`). -/
def Instr.make (op : Op) (sign : Bool) (addr : Addr12) : Instr :=
  match op with
  | .stop => .stop sign addr       | .tr => .tr sign addr
  | .trOv => .trOv sign addr       | .trPlus => .trPlus sign addr
  | .trZero => .trZero sign addr   | .sub => .sub sign addr
  | .rSub => .rSub sign addr       | .subAb => .subAb sign addr
  | .noOp => .noOp sign addr       | .add => .add sign addr
  | .rAdd => .rAdd sign addr       | .addAb => .addAb sign addr
  | .store => .store sign addr     | .storeA => .storeA sign addr
  | .storeMq => .storeMq sign addr | .loadMq => .loadMq sign addr
  | .mpy => .mpy sign addr         | .mpyR => .mpyR sign addr
  | .div => .div sign addr         | .round => .round sign addr
  | .lLeft => .lLeft sign addr     | .lRight => .lRight sign addr
  | .aLeft => .aLeft sign addr     | .aRight => .aRight sign addr
  | .read => .read sign addr       | .readB => .readB sign addr
  | .write => .write sign addr     | .writeEf => .writeEf sign addr
  | .rewind => .rewind sign addr   | .setDr => .setDr sign addr
  | .sense => .sense sign addr     | .copy => .copy sign addr

/-- The operation, sign and address of an instruction, together. -/
def Instr.parts : Instr → Op × Bool × Addr12
  | .stop s a => (.stop, s, a)       | .tr s a => (.tr, s, a)
  | .trOv s a => (.trOv, s, a)       | .trPlus s a => (.trPlus, s, a)
  | .trZero s a => (.trZero, s, a)   | .sub s a => (.sub, s, a)
  | .rSub s a => (.rSub, s, a)       | .subAb s a => (.subAb, s, a)
  | .noOp s a => (.noOp, s, a)       | .add s a => (.add, s, a)
  | .rAdd s a => (.rAdd, s, a)       | .addAb s a => (.addAb, s, a)
  | .store s a => (.store, s, a)     | .storeA s a => (.storeA, s, a)
  | .storeMq s a => (.storeMq, s, a) | .loadMq s a => (.loadMq, s, a)
  | .mpy s a => (.mpy, s, a)         | .mpyR s a => (.mpyR, s, a)
  | .div s a => (.div, s, a)         | .round s a => (.round, s, a)
  | .lLeft s a => (.lLeft, s, a)     | .lRight s a => (.lRight, s, a)
  | .aLeft s a => (.aLeft, s, a)     | .aRight s a => (.aRight, s, a)
  | .read s a => (.read, s, a)       | .readB s a => (.readB, s, a)
  | .write s a => (.write, s, a)     | .writeEf s a => (.writeEf, s, a)
  | .rewind s a => (.rewind, s, a)   | .setDr s a => (.setDr, s, a)
  | .sense s a => (.sense, s, a)     | .copy s a => (.copy, s, a)

/-- The operation of an instruction. -/
def Instr.op (i : Instr) : Op := i.parts.1

/-- The sign bit S of an instruction. -/
def Instr.sign (i : Instr) : Bool := i.parts.2.1

/-- The address field ADDR of an instruction. -/
def Instr.addr (i : Instr) : Addr12 := i.parts.2.2

end Sys2Proof
end

