-- ==== Sys2Proof/WellFormed.lean ====
section
/-! DEFINITION. When an OPCODE_MAP is one the spec allows, and when an instruction can be encoded
under a map. An instruction's S and ADDR are well formed by their types. -/

namespace Sys2Proof

/-- No two OP values name one operation. R68 asks it of the seven implemented operations; R70's
`OPCODE_MAP^-1`, with `encode(decode(h)) = h` for every h that decodes, needs it of all (log 5). -/
def OpcodeMap.injective (m : OpcodeMap) : Bool :=
  OpCode.all.all fun c => OpCode.all.all fun d =>
    decide (m c = none) || decide (m c ≠ m d) || decide (c = d)

/-- Every implemented operation has an OP value (R68). -/
def OpcodeMap.mapsImplemented (m : OpcodeMap) : Bool :=
  Op.all.all fun op => !op.implemented || (m.codeOf op).isSome

/-- An OPCODE_MAP that R68 and R70 allow. -/
def OpcodeMap.wellFormed (m : OpcodeMap) : Bool := m.mapsImplemented && m.injective

/-- The instruction's operation has an OP value under the map, so `encode` gives it a half-word (R70). -/
def Instr.wellFormed (m : OpcodeMap) (i : Instr) : Bool := (m.codeOf i.op).isSome

end Sys2Proof
end

