-- ==== Sys2Proof/Decode.lean ====
section
/-! DEFINITION. The instruction codec (R67 to R75): the default OPCODE_MAP, decode, encode, the blank
and the packing of instruction lists into cells. -/

namespace Sys2Proof

/-- The default OPCODE_MAP: the IBM 701 numbering of R68's table (log 4). -/
def defaultOpcodeMap : OpcodeMap := fun c => Op.all[c.toNat]?

/-- S, bit 17 of a half-word instruction (R67). -/
def signField (h : Half18) : Bool := h.getLsbD 17

/-- OP, bits 16..12 (R67). -/
def opField (h : Half18) : OpCode := h.extractLsb' 12 5

/-- ADDR, bits 11..0 (R67). -/
def addrField (h : Half18) : Addr12 := h.extractLsb' 0 12

/-- What R69's `raise Fault(InvalidOpcode, {op: OP, word: h})` carries. -/
structure InvalidOpcode where
  op   : OpCode
  word : Half18
  deriving DecidableEq, Repr

/-- R69: the instruction of a half-word under an OPCODE_MAP, or InvalidOpcode; never a default. -/
def decode (m : OpcodeMap) (h : Half18) : Except InvalidOpcode Instr :=
  match m (opField h) with
  | some op => .ok (Instr.make op (signField h) (addrField h))
  | none    => .error { op := opField h, word := h }

/-- R70's packing of the three fields of a half-word; an address of 4096 or more is taken modulo 2^12. -/
def packFields (sign : Bool) (code : OpCode) (address : Nat) : Half18 :=
  (BitVec.ofBool sign ++ code) ++ BitVec.ofNat 12 address

/-- R70: the half-word of an instruction; none where the map gives its operation no OP value. -/
def encode (m : OpcodeMap) (i : Instr) : Option Half18 :=
  (m.codeOf i.op).map fun code => packFields i.sign code i.addr.toNat

/-- The blank half-word, all ones: "no instruction / blank" (R73). -/
def blank : Half18 := 0x3FFFF#18

/-- Half-words laid into cells, two a cell, low half first; the last cell of an odd list gets the
blank as its high half (R73, R74). -/
def packHalves : List Half18 → List Word36
  | []            => []
  | [lo]          => [blank ++ lo]
  | lo :: hi :: r => (hi ++ lo) :: packHalves r

/-- The half-words of an instruction list; none where one of them has no OP value. -/
def encodeAll (m : OpcodeMap) : List Instr → Option (List Half18)
  | []      => some []
  | i :: is =>
    match encode m i, encodeAll m is with
    | some h, some hs => some (h :: hs)
    | _, _            => none

/-- R74: the cells of an instruction list. -/
def packInstructions (m : OpcodeMap) (is : List Instr) : Option (List Word36) :=
  (encodeAll m is).map packHalves

/-- The table's bits of an instruction, numbered from the least significant bit of its half-word.
Bits from `nbits` upwards are 0; a number that still does not fit 18 bits is no instruction (log 9). -/
def tableHalfWord (nbits w : Nat) : Option Half18 :=
  if w % 2 ^ nbits < 2 ^ 18 then some (BitVec.ofNat 18 (w % 2 ^ nbits)) else none

/-- The instruction the decoder reads, under the default OPCODE_MAP, from the opcode table's bits. -/
def decodeTableWord (nbits w : Nat) : Option Instr :=
  match tableHalfWord nbits w with
  | some h => (decode defaultOpcodeMap h).toOption
  | none   => none

end Sys2Proof
end

