-- ==== Sys2Proof/Machine/Codec.lean ====
section
/-! DEFINITION. The word codec (R60 to R65): sign-magnitude full words and half-words, total on every
integer and every word. A half of a word is selected by `high` (the spec's `portion`). -/

namespace Sys2Proof.Machine

/-- The 18 bits of one half of a word: bits 35..18 for the high half, bits 17..0 for the low (R63). -/
def halfOf (w : Word36) (high : Bool) : Half18 :=
  if high then w.extractLsb' 18 18 else w.extractLsb' 0 18

/-- A word with one half replaced and the other kept (R43). -/
def mergeHalf (w : Word36) (high : Bool) (f : Half18) : Word36 :=
  if high then f ++ w.extractLsb' 0 18 else w.extractLsb' 18 18 ++ f

/-- R61: sign bit 35 and the magnitude modulo 2^35. -/
def encodeFull (v : Int) : Word36 :=
  BitVec.ofBool (decide (v < 0)) ++ BitVec.ofNat 35 v.natAbs

/-- R62: the integer a full word denotes. -/
def decodeFull (w : Word36) : Int := SM (w.getLsbD 35) (w.extractLsb' 0 35).toNat

/-- R64's 18-bit field: sign bit 17 and the magnitude modulo 2^17. -/
def halfField (v : Int) : Half18 :=
  BitVec.ofBool (decide (v < 0)) ++ BitVec.ofNat 17 v.natAbs

/-- R64: the field in the selected half of a word whose other half is 0. -/
def encodeHalf (v : Int) (high : Bool) : Word36 := mergeHalf 0#36 high (halfField v)

/-- The integer an 18-bit field denotes (R65). -/
def fieldValue (f : Half18) : Int := SM (f.getLsbD 17) (f.extractLsb' 0 17).toNat

/-- R65: the integer the selected half of a word denotes. -/
def decodeHalf (w : Word36) (high : Bool) : Int := fieldValue (halfOf w high)

end Sys2Proof.Machine
end

