-- ==== Sys2Proof/Machine/Ops.lean ====
section
/-! DEFINITION. The named operations over memory and registers, instruction fetch, the counter's
advance, and the fault action, which is the block's only exception entry. There is no return from it
but RESET (R209). -/

namespace Sys2Proof.Machine

/-- MEM_CELLS (R5, R28). -/
def memCells : Nat := 2048

/-- What a cell that memory does not list reads as. Every contents of the 2048 cells has its list, so
this is only how contents are written down (log 1); that `State.reset` lists nothing is log 2. -/
def Memory.unlisted : Word36 := 0#36

/-- The word in a cell. -/
def Memory.read : Memory → Nat → Word36
  | [], _          => Memory.unlisted
  | (b, x) :: m, a => if a = b then x else Memory.read m a

/-- A cell's pair in front of memory, unless the cell then reads as an unlisted one does. -/
def Memory.cons (a : Nat) (w : Word36) (m : Memory) : Memory :=
  if w = Memory.unlisted then m else (a, w) :: m

/-- Memory with one cell's word replaced, in canonical form. -/
def Memory.write : Memory → Nat → Word36 → Memory
  | [], a, w          => Memory.cons a w []
  | (b, x) :: m, a, w =>
    if a < b then Memory.cons a w ((b, x) :: m)
    else if a = b then Memory.cons a w m
    else (b, x) :: Memory.write m a w

/-- The canonical form from a lowest permitted cell index upwards. -/
def Memory.wfFrom (lo : Nat) : Memory → Bool
  | []          => true
  | (b, x) :: m =>
    decide (lo ≤ b) && decide (b < memCells) && decide (x ≠ Memory.unlisted) && Memory.wfFrom (b + 1) m

/-- Memory's canonical form: cell indexes strictly rising and below 2048, no cell listed that holds
what an unlisted one reads as. -/
def Memory.wf (m : Memory) : Bool := Memory.wfFrom 0 m

/-- The canonical memory whose cell c holds `f c`, for the `n` cells from `lo` upwards. -/
def Memory.ofCells (f : Nat → Word36) : Nat → Nat → Memory
  | _, 0      => []
  | lo, n + 1 => Memory.cons lo (f lo) (Memory.ofCells f (lo + 1) n)

/-- `IC <- v`. -/
def State.setIc (s : State) (v : Addr12) : State := { s with ic := v }

/-- `ACC <- v`. -/
def State.setAcc (s : State) (v : Accumulator) : State := { s with acc := v }

/-- `OV <- v`. -/
def State.setOv (s : State) (v : Bool) : State := { s with ov := v }

/-- `RUN <- v`. -/
def State.setRun (s : State) (v : RunState) : State := { s with run := v }

/-- `FAULT <- v`. -/
def State.setFault (s : State) (v : FaultRecord) : State := { s with fault := v }

/-- MEM replaced. -/
def State.setMem (s : State) (v : Memory) : State := { s with mem := v }

/-- `MemRead(cell, 1)` (R8). Every cell index exists, so it cannot fault (R47). -/
def State.memRead (s : State) (cell : CellIx) : Word36 := s.mem.read cell.toNat

/-- `MemWrite(cell, 1, w)` (R8). -/
def State.memWrite (s : State) (cell : CellIx) (w : Word36) : State :=
  s.setMem (s.mem.write cell.toNat w)

/-- The cell of a half-word address: `n div 2` (R40, R44). -/
def cellOf (n : Addr12) : CellIx := n.extractLsb' 1 11

/-- Whether a half-word address names the high half: n mod 2 (R41, R44; even = low). -/
def isHigh (n : Addr12) : Bool := n.getLsbD 0

/-- `FetchHalf(n)` (R44): the 18 bits at a half-word address. -/
def State.fetchHalf (s : State) (n : Addr12) : Half18 := halfOf (s.memRead (cellOf n)) (isHigh n)

/-- The 18 bits at a half-word address replaced, the cell's other half kept (R43). -/
def State.storeHalf (s : State) (n : Addr12) (f : Half18) : State :=
  s.memWrite (cellOf n) (mergeHalf (s.memRead (cellOf n)) (isHigh n) f)

/-- Line 3 of R91: IC advanced by 1 modulo 4096, before the instruction executes (R93). -/
def State.advance (s : State) : State := s.setIc (s.ic + 1#12)

/-- While an instruction executes, the slot it was fetched from: IC - 1, since only the advance has
written IC (R21; log 6). -/
def State.executingSlot (s : State) : Addr12 := s.ic - 1#12

/-- While an instruction executes and has written nothing, the half-word it was decoded from (log 6). -/
def State.executingWord (s : State) : Half18 := s.fetchHalf s.executingSlot

/-- R201's fault action, `raise Fault(kind, {op, word})`, after the advance: FAULT is written, RUN
becomes Faulted, nothing else changes and the step ends. -/
def State.raise (s : State) (kind : FaultKind) (op : OpCode) (word : Half18) : State :=
  (s.setFault { kind := kind, op := op, atSlot := s.executingSlot, word := word }).setRun .faulted

/-- R170's handler, shared by the 25 operations without one of their own. -/
def State.raiseUnimplemented (s : State) : State :=
  s.raise .unimplementedOperation (opField s.executingWord) s.executingWord

end Sys2Proof.Machine
end

