-- ==== Sys2Proof/Machine/Alu.lean ====
section
/-! DEFINITION. The ALU and accumulator primitives (R110 to R115): INSERT, CLEAR, ADD, SHL, SHR and
`value_as_signed`. -/

namespace Sys2Proof.Machine

/-- The accumulator an integer leaves: its sign and its magnitude modulo 2^35 (R111). -/
def Accumulator.ofInt (v : Int) : Accumulator :=
  { sign := decide (v < 0), mag := BitVec.ofNat 35 v.natAbs }

/-- `value_as_signed()` (R113). -/
def Accumulator.value (a : Accumulator) : Int := SM a.sign a.mag.toNat

/-- `insert(v)` (R111): a bare load, OV unchanged. -/
def State.insert (s : State) (v : Int) : State := s.setAcc (Accumulator.ofInt v)

/-- `reset()`, the accumulator clear (R114): OV unchanged. -/
def State.clearAcc (s : State) : State := s.setAcc { sign := false, mag := 0#35 }

/-- `add(v)` (R112): the exact sum is inserted, then OV compares the P/Q pair before and after. -/
def State.addAcc (s : State) (v : Int) : State :=
  let t := s.insert (s.acc.value + v)
  t.setOv (overflow s.acc.mag t.acc.mag)

/-- The power of two that a shift by `n` multiplies or divides by. From 35 upwards no bit of a 35-bit
magnitude is left (R115), so a larger count shifts as 35 does; this keeps the number small. -/
def shiftFactor (n : Nat) : Nat := 2 ^ min n 35

/-- `shl(n)` (R115): bits moved past bit 34 are lost; sign and OV unchanged. -/
def State.shl (s : State) (n : Nat) : State :=
  s.setAcc { s.acc with mag := BitVec.ofNat 35 (s.acc.mag.toNat * shiftFactor n) }

/-- `shr(n)` (R115): bits moved below bit 0 are lost; sign and OV unchanged. -/
def State.shr (s : State) (n : Nat) : State :=
  s.setAcc { s.acc with mag := BitVec.ofNat 35 (s.acc.mag.toNat / shiftFactor n) }

end Sys2Proof.Machine
end

