-- ==== Sys2Proof/Machine/Operands.lean ====
section
/-! DEFINITION. The operand forms: resolving a logical address (R41), reading and writing the operand
it names (R42, R43). The other two forms, the transfer target and the shift count, are ADDR itself
(R71). -/

namespace Sys2Proof.Machine

/-- The tagged location that `resolve` gives (R41). -/
inductive Location where
  | full (cell : CellIx)
  | half (cell : CellIx) (high : Bool)
  deriving DecidableEq, Repr

/-- R41: S = 1 names the full word of cell ADDR div 2; S = 0 names the half-word at ADDR. -/
def resolve (sign : Bool) (addr : Addr12) : Location :=
  if sign then .full (cellOf addr) else .half (cellOf addr) (isHigh addr)

/-- `ReadOperand(loc)` (R42): the integer the full word or half-word denotes, unscaled. -/
def State.readOperand (s : State) : Location → Int
  | .full c   => decodeFull (s.memRead c)
  | .half c h => decodeHalf (s.memRead c) h

/-- `WriteOperand(loc, v)` (R43): a half-word write keeps the cell's other half. -/
def State.writeOperand (s : State) (loc : Location) (v : Int) : State :=
  match loc with
  | .full c   => s.memWrite c (encodeFull v)
  | .half c h => s.memWrite c (mergeHalf (s.memRead c) h (halfOf (encodeHalf v h) h))

end Sys2Proof.Machine
end

