-- ==== Sys2Proof/Machine/Arithmetic.lean ====
section
/-! DEFINITION. Arithmetic: R_ADD and ADD (43_arithmetic.md). -/

namespace Sys2Proof.Machine

/-- R_ADD (R140): clear ACC, then insert the operand; OV unchanged. -/
def execRAdd (sign : Bool) (addr : Addr12) (s : State) : Host.Outcome State Fault Refusal :=
  .next (s.clearAcc.insert (s.readOperand (resolve sign addr)))

/-- ADD (R141): add the operand; OV set or cleared by the P/Q comparison. -/
def execAdd (sign : Bool) (addr : Addr12) (s : State) : Host.Outcome State Fault Refusal :=
  .next (s.addAcc (s.readOperand (resolve sign addr)))

end Sys2Proof.Machine
end

