-- ==== Sys2Proof/Machine/Control.lean ====
section
/-! DEFINITION. Control transfer: TR and STOP (42_control.md). A meaning runs after the step's advance
of IC (R97). S is ignored by both (R72(c)). -/

namespace Sys2Proof.Machine

/-- TR (R130): IC <- ADDR. -/
def execTr (_sign : Bool) (addr : Addr12) (s : State) : Host.Outcome State Fault Refusal :=
  .next (s.setIc addr)

/-- STOP (R131): IC <- ADDR and RUN <- Halted. -/
def execStop (_sign : Bool) (addr : Addr12) (s : State) : Host.Outcome State Fault Refusal :=
  .next ((s.setIc addr).setRun .halted)

end Sys2Proof.Machine
end

