-- ==== Sys2Proof/Machine/Shift.lean ====
section
/-! DEFINITION. Accumulator shifts: A_LEFT and A_RIGHT (45_shift.md). The count is the whole ADDR; S is
ignored (R72(c)). -/

namespace Sys2Proof.Machine

/-- A_LEFT (R160). -/
def execALeft (_sign : Bool) (addr : Addr12) (s : State) : Host.Outcome State Fault Refusal :=
  .next (s.shl addr.toNat)

/-- A_RIGHT (R161). -/
def execARight (_sign : Bool) (addr : Addr12) (s : State) : Host.Outcome State Fault Refusal :=
  .next (s.shr addr.toNat)

end Sys2Proof.Machine
end

