-- ==== Sys2Proof/Machine/Store.lean ====
section
/-! DEFINITION. STORE (44_store.md). -/

namespace Sys2Proof.Machine

/-- STORE (R150): the accumulator's signed value to the operand; ACC and OV unchanged. -/
def execStore (sign : Bool) (addr : Addr12) (s : State) : Host.Outcome State Fault Refusal :=
  .next (s.writeOperand (resolve sign addr) s.acc.value)

end Sys2Proof.Machine
end

