-- ==== Sys2Proof/Machine/Unimplemented.lean ====
section
/-! DEFINITION. The 25 operations the block maps but gives no handler (46_unimplemented.md). The spec's
effect of each is the UnimplementedOperation fault action (R170, R201): a next state with FAULT
written and RUN = Faulted. S and ADDR are not read; ACC, OV, MEM and the advanced IC stay. -/

namespace Sys2Proof.Machine

/-- TR_OV (R171): UnimplementedOperation. -/
def execTrOv (_sign : Bool) (_addr : Addr12) (s : State) : Host.Outcome State Fault Refusal :=
  .next s.raiseUnimplemented

/-- TR_PLUS (R172): UnimplementedOperation. -/
def execTrPlus (_sign : Bool) (_addr : Addr12) (s : State) : Host.Outcome State Fault Refusal :=
  .next s.raiseUnimplemented

/-- TR_ZERO (R173): UnimplementedOperation. -/
def execTrZero (_sign : Bool) (_addr : Addr12) (s : State) : Host.Outcome State Fault Refusal :=
  .next s.raiseUnimplemented

/-- SUB (R174): UnimplementedOperation. -/
def execSub (_sign : Bool) (_addr : Addr12) (s : State) : Host.Outcome State Fault Refusal :=
  .next s.raiseUnimplemented

/-- R_SUB (R175): UnimplementedOperation. -/
def execRSub (_sign : Bool) (_addr : Addr12) (s : State) : Host.Outcome State Fault Refusal :=
  .next s.raiseUnimplemented

/-- SUB_AB (R176): UnimplementedOperation. -/
def execSubAb (_sign : Bool) (_addr : Addr12) (s : State) : Host.Outcome State Fault Refusal :=
  .next s.raiseUnimplemented

/-- NO_OP (R177): UnimplementedOperation. -/
def execNoOp (_sign : Bool) (_addr : Addr12) (s : State) : Host.Outcome State Fault Refusal :=
  .next s.raiseUnimplemented

/-- ADD_AB (R178): UnimplementedOperation. -/
def execAddAb (_sign : Bool) (_addr : Addr12) (s : State) : Host.Outcome State Fault Refusal :=
  .next s.raiseUnimplemented

/-- STORE_A (R179): UnimplementedOperation. -/
def execStoreA (_sign : Bool) (_addr : Addr12) (s : State) : Host.Outcome State Fault Refusal :=
  .next s.raiseUnimplemented

/-- STORE_MQ (R180): UnimplementedOperation. -/
def execStoreMq (_sign : Bool) (_addr : Addr12) (s : State) : Host.Outcome State Fault Refusal :=
  .next s.raiseUnimplemented

/-- LOAD_MQ (R181): UnimplementedOperation. -/
def execLoadMq (_sign : Bool) (_addr : Addr12) (s : State) : Host.Outcome State Fault Refusal :=
  .next s.raiseUnimplemented

/-- MPY (R182): UnimplementedOperation. -/
def execMpy (_sign : Bool) (_addr : Addr12) (s : State) : Host.Outcome State Fault Refusal :=
  .next s.raiseUnimplemented

/-- MPY_R (R183): UnimplementedOperation. -/
def execMpyR (_sign : Bool) (_addr : Addr12) (s : State) : Host.Outcome State Fault Refusal :=
  .next s.raiseUnimplemented

/-- DIV (R184): UnimplementedOperation. -/
def execDiv (_sign : Bool) (_addr : Addr12) (s : State) : Host.Outcome State Fault Refusal :=
  .next s.raiseUnimplemented

/-- ROUND (R185): UnimplementedOperation. -/
def execRound (_sign : Bool) (_addr : Addr12) (s : State) : Host.Outcome State Fault Refusal :=
  .next s.raiseUnimplemented

/-- L_LEFT (R186): UnimplementedOperation. -/
def execLLeft (_sign : Bool) (_addr : Addr12) (s : State) : Host.Outcome State Fault Refusal :=
  .next s.raiseUnimplemented

/-- L_RIGHT (R187): UnimplementedOperation. -/
def execLRight (_sign : Bool) (_addr : Addr12) (s : State) : Host.Outcome State Fault Refusal :=
  .next s.raiseUnimplemented

/-- READ (R188): UnimplementedOperation. -/
def execRead (_sign : Bool) (_addr : Addr12) (s : State) : Host.Outcome State Fault Refusal :=
  .next s.raiseUnimplemented

/-- READ_B (R189): UnimplementedOperation. -/
def execReadB (_sign : Bool) (_addr : Addr12) (s : State) : Host.Outcome State Fault Refusal :=
  .next s.raiseUnimplemented

/-- WRITE (R190): UnimplementedOperation. -/
def execWrite (_sign : Bool) (_addr : Addr12) (s : State) : Host.Outcome State Fault Refusal :=
  .next s.raiseUnimplemented

/-- WRITE_EF (R191): UnimplementedOperation. -/
def execWriteEf (_sign : Bool) (_addr : Addr12) (s : State) : Host.Outcome State Fault Refusal :=
  .next s.raiseUnimplemented

/-- REWIND (R192): UnimplementedOperation. -/
def execRewind (_sign : Bool) (_addr : Addr12) (s : State) : Host.Outcome State Fault Refusal :=
  .next s.raiseUnimplemented

/-- SET_DR (R193): UnimplementedOperation. -/
def execSetDr (_sign : Bool) (_addr : Addr12) (s : State) : Host.Outcome State Fault Refusal :=
  .next s.raiseUnimplemented

/-- SENSE (R194): UnimplementedOperation. -/
def execSense (_sign : Bool) (_addr : Addr12) (s : State) : Host.Outcome State Fault Refusal :=
  .next s.raiseUnimplemented

/-- COPY (R195): UnimplementedOperation. -/
def execCopy (_sign : Bool) (_addr : Addr12) (s : State) : Host.Outcome State Fault Refusal :=
  .next s.raiseUnimplemented

end Sys2Proof.Machine
end

