-- ==== Sys2Proof/Machine/Dispatch.lean ====
section
/-! DEFINITION. Dispatch (R94): one arm per instruction, each one call of its meaning. -/

namespace Sys2Proof.Machine

def exec (i : Instr) (s : State) : Host.Outcome State Fault Refusal :=
  match i with
  | .stop sign addr => Sys2Proof.Machine.execStop sign addr s
  | .tr sign addr => Sys2Proof.Machine.execTr sign addr s
  | .trOv sign addr => Sys2Proof.Machine.execTrOv sign addr s
  | .trPlus sign addr => Sys2Proof.Machine.execTrPlus sign addr s
  | .trZero sign addr => Sys2Proof.Machine.execTrZero sign addr s
  | .sub sign addr => Sys2Proof.Machine.execSub sign addr s
  | .rSub sign addr => Sys2Proof.Machine.execRSub sign addr s
  | .subAb sign addr => Sys2Proof.Machine.execSubAb sign addr s
  | .noOp sign addr => Sys2Proof.Machine.execNoOp sign addr s
  | .add sign addr => Sys2Proof.Machine.execAdd sign addr s
  | .rAdd sign addr => Sys2Proof.Machine.execRAdd sign addr s
  | .addAb sign addr => Sys2Proof.Machine.execAddAb sign addr s
  | .store sign addr => Sys2Proof.Machine.execStore sign addr s
  | .storeA sign addr => Sys2Proof.Machine.execStoreA sign addr s
  | .storeMq sign addr => Sys2Proof.Machine.execStoreMq sign addr s
  | .loadMq sign addr => Sys2Proof.Machine.execLoadMq sign addr s
  | .mpy sign addr => Sys2Proof.Machine.execMpy sign addr s
  | .mpyR sign addr => Sys2Proof.Machine.execMpyR sign addr s
  | .div sign addr => Sys2Proof.Machine.execDiv sign addr s
  | .round sign addr => Sys2Proof.Machine.execRound sign addr s
  | .lLeft sign addr => Sys2Proof.Machine.execLLeft sign addr s
  | .lRight sign addr => Sys2Proof.Machine.execLRight sign addr s
  | .aLeft sign addr => Sys2Proof.Machine.execALeft sign addr s
  | .aRight sign addr => Sys2Proof.Machine.execARight sign addr s
  | .read sign addr => Sys2Proof.Machine.execRead sign addr s
  | .readB sign addr => Sys2Proof.Machine.execReadB sign addr s
  | .write sign addr => Sys2Proof.Machine.execWrite sign addr s
  | .writeEf sign addr => Sys2Proof.Machine.execWriteEf sign addr s
  | .rewind sign addr => Sys2Proof.Machine.execRewind sign addr s
  | .setDr sign addr => Sys2Proof.Machine.execSetDr sign addr s
  | .sense sign addr => Sys2Proof.Machine.execSense sign addr s
  | .copy sign addr => Sys2Proof.Machine.execCopy sign addr s

end Sys2Proof.Machine
end

