-- ==== Sys2Proof/Machine/Step.lean ====
section
/-! DEFINITION. The step (R91), with OPCODE_MAP as its argument; the machine's own step under the
default map; and the placing of one instruction where the next step fetches. -/

namespace Sys2Proof.Machine

/-- R91's Step under an OPCODE_MAP. A step whose RUN is not Running changes nothing (R90). -/
def stepWith (m : OpcodeMap) (s : State) : Host.Outcome State Fault Refusal :=
  match s.run with
  | .running =>
    match decode m (s.fetchHalf s.ic) with
    | .ok i    => exec i s.advance
    | .error e => .next (s.advance.raise .invalidOpcode e.op e.word)
  | .halted  => .next s
  | .faulted => .next s

/-- The step of the machine, under the default OPCODE_MAP (log 4). -/
def step (s : State) : Host.Outcome State Fault Refusal := stepWith defaultOpcodeMap s

/-- The state with the opcode table's bits stored as the half-word at IC and RUN = Running, so that the
next step fetches and runs exactly that instruction (log 9). -/
def State.withFetchWord (s : State) (nbits w : Nat) : State :=
  match tableHalfWord nbits w with
  | some h => (s.storeHalf s.ic h).setRun .running
  | none   => s

end Sys2Proof.Machine
end

