-- ==== Sys2Proof/Machine/Assembler.lean ====
section
/-! DEFINITION. The spec's assembler notation (R76) and data directives (R77), as a host-side encoder
of images. No rule of the block depends on it (D19); what it leaves open is log 14 and log 15. -/

namespace Sys2Proof.Machine

/-- The mnemonic of an operation, as R68's table spells it. -/
def mnemonic : Op → String
  | .stop => "STOP"        | .tr => "TR"            | .trOv => "TR_OV"      | .trPlus => "TR_PLUS"
  | .trZero => "TR_ZERO"   | .sub => "SUB"          | .rSub => "R_SUB"      | .subAb => "SUB_AB"
  | .noOp => "NO_OP"       | .add => "ADD"          | .rAdd => "R_ADD"      | .addAb => "ADD_AB"
  | .store => "STORE"      | .storeA => "STORE_A"   | .storeMq => "STORE_MQ" | .loadMq => "LOAD_MQ"
  | .mpy => "MPY"          | .mpyR => "MPY_R"       | .div => "DIV"         | .round => "ROUND"
  | .lLeft => "L_LEFT"     | .lRight => "L_RIGHT"   | .aLeft => "A_LEFT"    | .aRight => "A_RIGHT"
  | .read => "READ"        | .readB => "READ_B"     | .write => "WRITE"     | .writeEf => "WRITE_EF"
  | .rewind => "REWIND"    | .setDr => "SET_DR"     | .sense => "SENSE"     | .copy => "COPY"

/-- One line: an instruction (R76) or a directive (R77). -/
inductive AsmLine where
  | instr (op : Op) (sign : Bool) (addr : Addr12)
  | blank
  | half (v : Int)
  | full (v : Int)
  | raw  (x : Half18)
  deriving DecidableEq, Repr

/-- The half-words a line places at a slot; none where it cannot stand there: FULL starts at an even
slot (R77), and an operation outside the map has no half-word. That such a line is refused is log 14. -/
def AsmLine.slots (m : OpcodeMap) (slot : Nat) : AsmLine → Option (List Half18)
  | .instr op sign addr => (encode m (Instr.make op sign addr)).map fun h => [h]
  | .blank  => some [Sys2Proof.blank]
  | .half v => some [halfOf (encodeHalf v false) false]
  | .full v => if slot % 2 = 0 then some [halfOf (encodeFull v) false, halfOf (encodeFull v) true] else none
  | .raw x  => some [x]

/-- The half-words of lines placed from a slot upwards. -/
def assembleFrom (m : OpcodeMap) : Nat → List AsmLine → Option (List Half18)
  | _, []           => some []
  | slot, l :: rest =>
    match l.slots m slot with
    | none    => none
    | some hs => (assembleFrom m (slot + hs.length) rest).map fun more => hs ++ more

/-- The half-word left unfilled beside a listing's last line. After an instruction it is the blank (R73,
R74). R74 says nothing of a last line that is a directive: 0 after HALF is DEDUCED from
95_test_vectors.md P5, 0 after RAW and the blank after BLANK are DESIGN CHOICES (log 15). FULL leaves no
half-word unfilled. -/
def AsmLine.padding : AsmLine → Half18
  | .instr _ _ _ => Sys2Proof.blank
  | .blank  => Sys2Proof.blank
  | .half _ => 0#18
  | .full _ => 0#18
  | .raw _  => 0#18

/-- The half-words of a listing with its last cell filled, by its last line's padding (log 15). -/
def fillLastCell (ls : List AsmLine) (hs : List Half18) : List Half18 :=
  if hs.length % 2 = 0 then hs
  else match ls.getLast? with
    | some l => hs ++ [l.padding]
    | none   => hs

/-- The image of a listing, as containers for RESET (R74, R230). The high half of the last cell of a
listing of odd length follows its last line, which for a directive is the model's choice (log 15). -/
def assemble (m : OpcodeMap) (ls : List AsmLine) : Option (List Container) :=
  (assembleFrom m 0 ls).map fun hs => (packHalves (fillLastCell ls hs)).map (BitVec.setWidth 64)

/-- The value of a decimal digit. -/
def digit? (c : Char) : Option Nat :=
  if '0' ≤ c ∧ c ≤ '9' then some (c.toNat - '0'.toNat) else none

/-- A decimal number continued from a value already read. -/
def natFrom? (soFar : Nat) : List Char → Option Nat
  | []      => some soFar
  | c :: cs => (digit? c).bind fun d => natFrom? (10 * soFar + d) cs

/-- A decimal number of one digit or more. -/
def nat? (cs : List Char) : Option Nat := if cs = [] then none else natFrom? 0 cs

/-- A decimal number with an optional leading '-'. -/
def int? : List Char → Option Int
  | '-' :: cs => (nat? cs).map fun n => -(n : Int)
  | cs        => (nat? cs).map fun n => (n : Int)

/-- The words of a line, between spaces; `cur` is the word being read. -/
def wordsFrom (cur : List Char) : List Char → List (List Char)
  | []      => if cur = [] then [] else [cur]
  | c :: cs =>
    if c = ' ' then (if cur = [] then wordsFrom [] cs else cur :: wordsFrom [] cs)
    else wordsFrom (cur ++ [c]) cs

/-- An address 0..4095 (R76). -/
def addr? (cs : List Char) : Option Addr12 :=
  (nat? cs).bind fun n => if n < 4096 then some (BitVec.ofNat 12 n) else none

/-- The operand of an instruction line: `N`, `-N` (S = 1), or `addr=N` (R76). -/
def operand? : List Char → Option (Bool × Addr12)
  | '-' :: cs => (addr? cs).map fun a => (true, a)
  | 'a' :: 'd' :: 'd' :: 'r' :: '=' :: cs => (addr? cs).map fun a => (false, a)
  | cs => (addr? cs).map fun a => (false, a)

/-- The operation a mnemonic names (R76). -/
def op? (cs : List Char) : Option Op := Op.all.find? fun op => decide ((mnemonic op).toList = cs)

/-- A line of the notation (R76, R77). -/
def parseLine (line : String) : Option AsmLine :=
  match wordsFrom [] line.toList with
  | [w] => if w = "BLANK".toList then some .blank else none
  | [w, v] =>
    if w = "HALF".toList then (int? v).map .half
    else if w = "FULL".toList then (int? v).map .full
    else if w = "RAW".toList then
      (nat? v).bind fun x => if x < 2 ^ 18 then some (.raw (BitVec.ofNat 18 x)) else none
    else (op? w).bind fun op => (operand? v).map fun (sign, addr) => .instr op sign addr
  | _ => none

end Sys2Proof.Machine
end

