-- ==== Sys2Proof/Machine/HostInterface.lean ====
section
/-! DEFINITION. The host's side of the block (70_reset_and_hazards.md): RESET, START, SNAPSHOT, and
STEP under a budget. The host's STEP itself is `step` (log 8). -/

namespace Sys2Proof.Machine

/-- The word RESET leaves in cell c: bits 35..0 of the image's container, or MEM_INIT beyond the image
(R230). -/
def imageCell (memInit : Nat → Word36) (image : List Container) (c : Nat) : Word36 :=
  match image[c]? with
  | some w => w.setWidth 36
  | none   => memInit c

/-- RESET(image) (R230), for any value of the OPEN parameters MEM_INIT and OV_INIT. It is legal in any
run state; an image of more than 2048 words is refused and changes nothing. -/
def State.hostReset (memInit : Nat → Word36) (ovInit : Bool) (image : List Container) (s : State) : State :=
  if image.length ≤ memCells then
    { mem := Memory.ofCells (imageCell memInit image) 0 memCells
      acc := { sign := false, mag := 0#35 }
      ov := ovInit
      ic := 0#12
      run := .running
      fault := FaultRecord.clear }
  else s

/-- START (R242): Halted becomes Running; in Running and Faulted nothing changes. -/
def State.start (s : State) : State :=
  match s.run with
  | .halted  => s.setRun .running
  | .running => s
  | .faulted => s

/-- RUN's code in the snapshot (R25). -/
def RunState.code : RunState → BitVec 2
  | .running => 0#2
  | .halted  => 1#2
  | .faulted => 2#2

/-- FAULT.kind's code (R204). -/
def FaultKind.code : FaultKind → BitVec 2
  | .none                   => 0#2
  | .invalidOpcode          => 1#2
  | .unimplementedOperation => 2#2

/-- The snapshot port (R240, R243), with RUN and FAULT.kind as their codes. -/
structure Snapshot where
  ic        : Addr12
  accSign   : Bool
  accMag    : Mag35
  ov        : Bool
  mem       : List Word36
  run       : BitVec 2
  faultKind : BitVec 2
  faultOp   : OpCode
  faultAt   : Addr12
  faultWord : Half18
  deriving DecidableEq, Repr

/-- SNAPSHOT (R240): a read of the whole state. -/
def State.snapshot (s : State) : Snapshot :=
  { ic := s.ic, accSign := s.acc.sign, accMag := s.acc.mag, ov := s.ov
    mem := (List.range memCells).map s.mem.read
    run := s.run.code, faultKind := s.fault.kind.code, faultOp := s.fault.op
    faultAt := s.fault.atSlot, faultWord := s.fault.word }

/-- A run has ended: RUN is Halted or Faulted (R244). -/
def State.ended (s : State) : Bool := decide (s.run ≠ .running)

/-- The host issues STEP until RUN ≠ Running or `budget` steps are issued (R241). Running out of budget
leaves RUN = Running: the run is then unfinished, not ended (R244). -/
def runBudget (m : OpcodeMap) : Nat → State → Host.Outcome State Fault Refusal
  | 0, s => .next s
  | budget + 1, s =>
    match s.run with
    | .running =>
      match stepWith m s with
      | .next t    => runBudget m budget t
      | .fault f   => .fault f
      | .refused r => .refused r
    | .halted  => .next s
    | .faulted => .next s

end Sys2Proof.Machine
end

