-- ==== Sys2Proof/Safety.lean ====
section
/-! DEFINITION. The terms the claims use: what a step executes, the machine's invariant, and what a
program can observe. -/

namespace Sys2Proof.Machine

/-- The step at `s` executes `i`: RUN is Running and the half-word at IC decodes to `i` (R91). -/
def Executes (m : OpcodeMap) (s : State) (i : Instr) : Prop :=
  s.run = .running ∧ decode m (s.fetchHalf s.ic) = .ok i

/-- What holds of FAULT in every state a run reaches: while not Faulted it is clear (R26); in Faulted
it is a fault's record, its `op` is the OP field of its `word`, and `at` and `word` are the slot before
IC and that slot's contents, because the fault action and the advance wrote nothing else (R201). -/
def State.faultConsistent (s : State) : Prop :=
  match s.run with
  | .faulted =>
    s.fault.kind ≠ .none ∧ s.fault.op = opField s.fault.word ∧ s.fault.atSlot = s.executingSlot ∧
      s.fault.word = s.executingWord
  | .running => s.fault = FaultRecord.clear
  | .halted  => s.fault = FaultRecord.clear

/-- The machine's invariant: memory is in its canonical form (2048 cells, log 1) and FAULT agrees with
RUN. -/
def State.Inv (s : State) : Prop := s.mem.wf = true ∧ s.faultConsistent

/-- Two states that a program cannot tell apart: they differ at most in OV and FAULT, which no
instruction reads (R23, R26). -/
def ProgramAlike (s t : State) : Prop :=
  s.mem = t.mem ∧ s.acc = t.acc ∧ s.ic = t.ic ∧ s.run = t.run

end Sys2Proof.Machine
end

