-- ==== Sys2Proof/Certificates/Slice0/Obligations.lean ====
section
/-! DEFINITION. The statements for the provers. Each docstring names the rules of spec/ it formalises. -/

open Sys2Proof Sys2Proof.Machine

/-! ### The word codec (30_encoding.md section 1) -/

/-- R61, R62: the full-word codec, on every integer and every word. -/
def Obligations.FullWordCodec : Prop :=
  (∀ v : Int, (encodeFull v).toNat = (if v < 0 then 2 ^ 35 else 0) + v.natAbs % 2 ^ 35) ∧
  (∀ w : Word36, decodeFull w =
    if w.toNat < 2 ^ 35 then (w.toNat : Int) else -((w.toNat - 2 ^ 35 : Nat) : Int)) ∧
  encodeFull 0 = 0x000000000#36 ∧ encodeFull (-2 ^ 35) = 0x800000000#36 ∧ decodeFull 0x800000000#36 = 0

/-- R64, R65: the half-word codec for both portions; the other half of an encoded word is 0 and the
other half of a decoded one is ignored. -/
def Obligations.HalfWordCodec : Prop :=
  (∀ (v : Int) (p : Bool), (encodeHalf v p).toNat =
    ((if v < 0 then 2 ^ 17 else 0) + v.natAbs % 2 ^ 17) * (if p then 2 ^ 18 else 1)) ∧
  (∀ (w : Word36) (p : Bool) (f : Nat), f = w.toNat / (if p then 2 ^ 18 else 1) % 2 ^ 18 →
    decodeHalf w p = if f < 2 ^ 17 then (f : Int) else -((f - 2 ^ 17 : Nat) : Int)) ∧
  (∀ (w : Word36) (p : Bool), halfOf w p = 0x20000#18 → decodeHalf w p = 0)

/-- R66: the round-trip laws with the minus-zero exception. -/
def Obligations.CodecRoundTrips : Prop :=
  (∀ v : Int, v.natAbs ≤ 2 ^ 35 - 1 → decodeFull (encodeFull v) = v) ∧
  (∀ (v : Int) (p : Bool), v.natAbs ≤ 2 ^ 17 - 1 → decodeHalf (encodeHalf v p) p = v) ∧
  (∀ w : Word36, w ≠ 0x800000000#36 → encodeFull (decodeFull w) = w) ∧
  (∀ (w : Word36) (p : Bool), halfOf w p ≠ 0x20000#18 →
    halfOf (encodeHalf (decodeHalf w p) p) p = halfOf w p) ∧
  encodeFull (decodeFull 0x800000000#36) = 0x000000000#36 ∧
  (∀ (w : Word36) (p : Bool), halfOf w p = 0x20000#18 →
    halfOf (encodeHalf (decodeHalf w p) p) p = 0x00000#18)

/-! ### The instruction codec (30_encoding.md sections 2 to 4) -/

/-- R69 (with R67's field positions): what decode answers for every half-word under every OPCODE_MAP,
and that it never raises InvalidOpcode under the default map. -/
def Obligations.DecodeReadsTheFields : Prop :=
  (∀ (m : OpcodeMap) (h : Half18) (c : OpCode), c.toNat = h.toNat / 2 ^ 12 % 2 ^ 5 →
    (∀ op, m c = some op → ∃ i, decode m h = .ok i ∧ i.op = op ∧
      i.sign = decide (2 ^ 17 ≤ h.toNat) ∧ i.addr.toNat = h.toNat % 2 ^ 12) ∧
    (m c = none → decode m h = .error { op := c, word := h })) ∧
  (∀ h : Half18, ∃ i, decode defaultOpcodeMap h = .ok i)

/-- From 30_encoding.md R70. Under every OPCODE_MAP decode of encode is the instruction, and encode packs
sign, OP value and address modulo 2^12. That encode of decode is the half-word is claimed only of a map
with an inverse: this is the model's own reading (log 5, DEDUCED), weaker than R70's "for every h that
decodes", since R68 lets a map give an unimplemented operation two OP values. The default map has an
inverse, encodes every instruction and decodes every half-word. -/
def Obligations.DecodeEncodeInverse : Prop :=
  (∀ m : OpcodeMap,
    (∀ i : Instr, i.wellFormed m = true → ∃ h, encode m i = some h ∧ decode m h = .ok i) ∧
    (∀ (i : Instr) (h : Half18), encode m i = some h → decode m h = .ok i) ∧
    (m.injective = true → ∀ (h : Half18) (i : Instr), decode m h = .ok i → encode m i = some h) ∧
    (∀ (i : Instr) (c : OpCode), m.codeOf i.op = some c → m c = some i.op ∧
      ∃ h, encode m i = some h ∧ h = packFields i.sign c i.addr.toNat)) ∧
  (∀ (s : Bool) (c : OpCode) (address : Nat), (packFields s c address).toNat =
    (if s then 2 ^ 17 else 0) + c.toNat * 2 ^ 12 + address % 2 ^ 12) ∧
  defaultOpcodeMap.injective = true ∧ (∀ i : Instr, i.wellFormed defaultOpcodeMap = true) ∧
  (∀ h : Half18, ∃ i, decode defaultOpcodeMap h = .ok i)

/-- The default numbering of R68's table, which the spec marks as general knowledge (K1; log 4). -/
def Obligations.DefaultOpcodeNumbers : Prop :=
  (∀ p ∈ [(0, Op.stop), (1, .tr), (2, .trOv), (3, .trPlus), (4, .trZero), (5, .sub), (6, .rSub), (7, .subAb),
      (8, .noOp), (9, .add), (10, .rAdd), (11, .addAb), (12, .store), (13, .storeA), (14, .storeMq), (15, .loadMq),
      (16, .mpy), (17, .mpyR), (18, .div), (19, .round), (20, .lLeft), (21, .lRight), (22, .aLeft), (23, .aRight),
      (24, .read), (25, .readB), (26, .write), (27, .writeEf), (28, .rewind), (29, .setDr), (30, .sense), (31, .copy)],
    defaultOpcodeMap (BitVec.ofNat 5 p.1) = some p.2) ∧
  defaultOpcodeMap.wellFormed = true

/-- Half-words of 95_test_vectors.md section 2.2 and of the rules' examples, decoded. -/
def Obligations.SampleWordsDecode : Prop :=
  ∀ p ∈ [(0x0A004#18, Instr.rAdd false 4#12), (0x2A004, .rAdd true 4), (0x29006, .add true 6), (0x0C00A, .store false 10),
      (0x00000, .stop false 0), (0x01064, .tr false 100), (0x16FFF, .aLeft false 4095), (0x17002, .aRight false 2),
      (0x05002, .sub false 2), (0x08000, .noOp false 0), (0x18000, .read false 0), (0x3FFFF, .copy true 4095)],
    decode defaultOpcodeMap p.1 = .ok p.2

/-- R74: an instruction list packed into cells and loaded by RESET stands with instruction n at
half-word address n, and an odd list's last cell has the blank in its high half. Of a list that fills more
cells than the 2048 there are, the number of cells and the blank alone are claimed. -/
def Obligations.PackedListStandsInOrder : Prop :=
  ∀ (m : OpcodeMap) (is : List Instr) (ws : List Word36), packInstructions m is = some ws →
    ws.length = (is.length + 1) / 2 ∧
    (is.length % 2 = 1 → ∃ w, ws.getLast? = some w ∧ halfOf w true = 0x3FFFF#18) ∧
    (ws.length ≤ 2048 → ∀ (memInit : Nat → Word36) (ov : Bool) (s : State) (n : Addr12) (i : Instr),
      is[n.toNat]? = some i →
        encode m i = some ((s.hostReset memInit ov (ws.map (BitVec.setWidth 64))).fetchHalf n))

/-- From 30_encoding.md R77, the data directives: BLANK, HALF and RAW place one half-word; FULL fills a whole
cell from an even slot. R77 says only that FULL must start at an even slot: that it is refused at an odd one
(`none`, the last clause) is the model's choice (log 14, DESIGN CHOICE). -/
def Obligations.DirectivesPlaceData : Prop :=
  ∀ (m : OpcodeMap) (slot : Nat),
    AsmLine.slots m slot .blank = some [0x3FFFF#18] ∧
    (∀ v : Int, AsmLine.slots m slot (.half v) = some [halfOf (encodeHalf v false) false]) ∧
    (∀ x : Half18, AsmLine.slots m slot (.raw x) = some [x]) ∧
    (∀ v : Int, slot % 2 = 0 → ∃ lo hi, AsmLine.slots m slot (.full v) = some [lo, hi] ∧
      packHalves [lo, hi] = [encodeFull v]) ∧
    (∀ v : Int, slot % 2 = 1 → AsmLine.slots m slot (.full v) = none)

/-! ### Operands and memory (20_memory.md) -/

/-- R41: a logical address resolves to the full word of cell ADDR div 2 for S = 1 and to the half-word at
ADDR, even = low, for S = 0, always an existing cell; ADD, R_ADD and STORE use it; TR, STOP, A_LEFT and A_RIGHT ignore S. -/
def Obligations.LogicalAddressResolves : Prop :=
  (∀ a : Addr12, ∃ c : CellIx, c.toNat = a.toNat / 2 ∧ c.toNat < 2048 ∧
    resolve true a = .full c ∧ resolve false a = .half c (decide (a.toNat % 2 = 1))) ∧
  (∀ (sg : Bool) (a : Addr12) (s : State),
    exec (.add sg a) s = .next (s.addAcc (s.readOperand (resolve sg a))) ∧
    exec (.rAdd sg a) s = .next (s.clearAcc.insert (s.readOperand (resolve sg a))) ∧
    exec (.store sg a) s = .next (s.writeOperand (resolve sg a) s.acc.value)) ∧
  (∀ (a : Addr12) (s : State), exec (.tr true a) s = exec (.tr false a) s ∧
    exec (.stop true a) s = exec (.stop false a) s ∧
    exec (.aLeft true a) s = exec (.aLeft false a) s ∧ exec (.aRight true a) s = exec (.aRight false a) s)

/-- R42: an operand is the value its full word or half-word encodes, unscaled, within ±(2^35 - 1) and
±(2^17 - 1). -/
def Obligations.OperandReads : Prop :=
  ∀ (s : State) (c : CellIx) (p : Bool),
    s.readOperand (.full c) = decodeFull (s.memRead c) ∧
    s.readOperand (.half c p) = decodeHalf (s.memRead c) p ∧
    (s.readOperand (.full c)).natAbs ≤ 2 ^ 35 - 1 ∧ (s.readOperand (.half c p)).natAbs ≤ 2 ^ 17 - 1

/-- R43: an operand write replaces the full word, or only the addressed 18 bits; every other half-word
and every other piece of state is kept. -/
def Obligations.OperandWrites : Prop :=
  ∀ (s : State) (c : CellIx) (v : Int), s.mem.wf = true →
    ((s.writeOperand (.full c) v).memRead c = encodeFull v ∧
      (∀ d, d ≠ c → (s.writeOperand (.full c) v).memRead d = s.memRead d)) ∧
    (∀ p : Bool,
      halfOf ((s.writeOperand (.half c p) v).memRead c) p = halfOf (encodeHalf v p) p ∧
      halfOf ((s.writeOperand (.half c p) v).memRead c) (!p) = halfOf (s.memRead c) (!p) ∧
      (∀ d, d ≠ c → (s.writeOperand (.half c p) v).memRead d = s.memRead d)) ∧
    (∀ loc, s.writeOperand loc v = { s with mem := (s.writeOperand loc v).mem } ∧
      (s.writeOperand loc v).mem.wf = true)

/-- R44, R92: fetching half-word address n reads cell n div 2, its low 18 bits for even n and its high
18 bits for odd n. -/
def Obligations.FetchSelectsTheHalf : Prop :=
  ∀ (s : State) (n : Addr12) (c : CellIx), c.toNat = n.toNat / 2 →
    (s.fetchHalf n).toNat =
      if n.toNat % 2 = 0 then (s.memRead c).toNat % 2 ^ 18 else (s.memRead c).toNat / 2 ^ 18

/-- R46: an odd full-word address names the cell of the address below it, and no access, half-word or
full-word, can be misaligned: every one completes. -/
def Obligations.FullWordAddressIgnoresParity : Prop :=
  (∀ (a : Addr12) (s : State), a.toNat % 2 = 1 →
    exec (.add true a) s = exec (.add true (a - 1#12)) s ∧
    exec (.rAdd true a) s = exec (.rAdd true (a - 1#12)) s ∧
    exec (.store true a) s = exec (.store true (a - 1#12)) s) ∧
  (∀ (sg : Bool) (a : Addr12) (s : State), (∃ t, exec (.add sg a) s = .next t) ∧
    (∃ t, exec (.rAdd sg a) s = .next t) ∧ ∃ t, exec (.store sg a) s = .next t)

/-- 20_memory.md R45: a full word read after a half-word write shows the written 18 bits at that half's
place, so the high half's sign is the full word's sign. -/
def Obligations.FullWordSeesHalfWordWrites : Prop :=
  ∀ (s : State) (c : CellIx) (v : Int), s.mem.wf = true →
    (((s.writeOperand (.half c false) v).memRead c).toNat =
      (s.memRead c).toNat / 2 ^ 18 * 2 ^ 18 + (halfField v).toNat) ∧
    (((s.writeOperand (.half c true) v).memRead c).toNat =
      (halfField v).toNat * 2 ^ 18 + (s.memRead c).toNat % 2 ^ 18) ∧
    ((s.writeOperand (.half c true) v).memRead c).getLsbD 35 = decide (v < 0)

/-- 20_memory.md R53, derived there from R44 and R50: the step after a STORE fetches what the STORE
wrote, where it wrote the slot being fetched, and what stood there before, where it did not. -/
def Obligations.StoreSeenByNextFetch : Prop :=
  ∀ (m : OpcodeMap) (s t : State) (sg : Bool) (a : Addr12), s.mem.wf = true →
    Executes m s (.store sg a) → stepWith m s = .next t →
      (∀ n : Addr12, t.fetchHalf n =
        if sg then
          if n.toNat / 2 = a.toNat / 2 then halfOf (encodeFull s.acc.value) (decide (n.toNat % 2 = 1))
          else s.fetchHalf n
        else if n = a then halfField s.acc.value else s.fetchHalf n) ∧
      t.run = .running ∧ t.ic = s.ic + 1#12 ∧
      (∀ i : Instr, sg = false → a = t.ic → decode m (halfField s.acc.value) = .ok i → Executes m t i)

/-! ### The step (40_cycle.md) -/

/-- From 40_cycle.md R90 and R91: a step of a running machine fetches the half-word at IC, advances IC,
decodes, and executes the one instruction or takes the fault action for InvalidOpcode; a step of a stopped machine changes
nothing. The last clause, that the machine's own step is the step under the default OPCODE_MAP, is the
model's choice (log 4, DESIGN CHOICE): R68 makes the map an argument. -/
def Obligations.StepRunsDecodedInstruction : Prop :=
  (∀ (m : OpcodeMap) (s : State), s.run = .running →
    (∀ i, decode m (s.fetchHalf s.ic) = .ok i → stepWith m s = exec i { s with ic := s.ic + 1#12 }) ∧
    (∀ e, decode m (s.fetchHalf s.ic) = .error e → stepWith m s =
      .next { s with
        ic := s.ic + 1#12
        run := .faulted
        fault := { kind := .invalidOpcode, op := e.op, atSlot := s.ic, word := e.word } }) ∧
    (s.ic + 1#12).toNat = (s.ic.toNat + 1) % 4096) ∧
  (∀ (m : OpcodeMap) (s : State), (s.run = .halted ∨ s.run = .faulted) → stepWith m s = .next s) ∧
  (∀ s : State, step s = stepWith defaultOpcodeMap s)

/-- Every step answers a next state, whatever the state and the map: fetch and operand accesses cannot
fault (20_memory.md R47, 60_exceptions.md R207) and the two error conditions are states (log 7). -/
def Obligations.EveryStepAnswers : Prop :=
  (∀ (m : OpcodeMap) (s : State), ∃ t, stepWith m s = .next t) ∧
  (∀ (i : Instr) (s : State), ∃ t, exec i s = .next t)

/-- R21, R93: every executed step advances IC by 1 modulo 4096, a faulting one too; TR and STOP leave
their address field there instead; no other instruction writes IC. -/
def Obligations.CounterAdvances : Prop :=
  ∀ (m : OpcodeMap) (s t : State), s.run = .running → stepWith m s = .next t →
    (∀ sg a, (Executes m s (.tr sg a) ∨ Executes m s (.stop sg a)) → t.ic = a) ∧
    ((∀ sg a, ¬ Executes m s (.tr sg a) ∧ ¬ Executes m s (.stop sg a)) →
      t.ic.toNat = (s.ic.toNat + 1) % 4096)

/-- R96: the table of run-state transitions, row by row, and that a step makes no other. -/
def Obligations.RunStateTransitions : Prop :=
  (∀ memInit ov image (s : State), image.length ≤ 2048 → (s.hostReset memInit ov image).run = .running) ∧
  (∀ (m : OpcodeMap) (s t : State), s.run = .running → stepWith m s = .next t →
    (t.run = .halted ↔ ∃ sg a, Executes m s (.stop sg a)) ∧
    (t.run = .faulted ↔ (∃ e, decode m (s.fetchHalf s.ic) = .error e) ∨
      ∃ i, Executes m s i ∧ i.op.implemented = false)) ∧
  (∀ s : State, s.run = .halted → s.start.run = .running) ∧
  (∀ (m : OpcodeMap) (s : State), s.run = .halted ∨ s.run = .faulted → stepWith m s = .next s) ∧
  (∀ s : State, s.run = .faulted → s.start = s)

/-! ### Control transfer (42_control.md) -/

/-- R130: TR. -/
def Obligations.TransferSetsCounter : Prop :=
  defaultOpcodeMap 1#5 = some .tr ∧
  (∀ (sg : Bool) (a : Addr12) (s : State), exec (.tr sg a) s = .next { s with ic := a }) ∧
  (∀ (m : OpcodeMap) (sg : Bool) (a : Addr12) (s : State), Executes m s (.tr sg a) →
    stepWith m s = .next { s with ic := a } ∧
    (a = s.ic → stepWith m s = .next s) ∧
    (a = s.ic + 1#12 → stepWith m s = .next s.advance))

/-- R131: STOP, and that START after it resumes at its address. -/
def Obligations.StopHaltsAtAddress : Prop :=
  defaultOpcodeMap 0#5 = some .stop ∧ decode defaultOpcodeMap 0x00000#18 = .ok (.stop false 0#12) ∧
  (∀ (sg : Bool) (a : Addr12) (s : State), exec (.stop sg a) s = .next { s with ic := a, run := .halted }) ∧
  (∀ (m : OpcodeMap) (sg : Bool) (a : Addr12) (s : State), Executes m s (.stop sg a) →
    stepWith m s = .next { s with ic := a, run := .halted } ∧
    stepWith m { s with ic := a, run := .halted } = .next { s with ic := a, run := .halted } ∧
    State.start { s with ic := a, run := .halted } = { s with ic := a } ∧
    (a = s.ic → Executes m (State.start { s with ic := a, run := .halted }) (.stop sg a)))

/-! ### Arithmetic (41_alu_accumulator.md, 43_arithmetic.md) -/

/-- R111, R113, R114, R115: the accumulator primitives, each changing ACC alone. -/
def Obligations.AccumulatorPrimitives : Prop :=
  (∀ (s : State) (v : Int), s.insert v =
      { s with acc := { sign := decide (v < 0), mag := BitVec.ofNat 35 (v.natAbs % 2 ^ 35) } } ∧
    ((s.insert v).acc = { sign := true, mag := 0#35 } ↔ v < 0 ∧ v % 2 ^ 35 = 0)) ∧
  (∀ a : Accumulator, a.value = if a.sign then -(a.mag.toNat : Int) else (a.mag.toNat : Int)) ∧
  (∀ s : State, s.clearAcc = { s with acc := { sign := false, mag := 0#35 } }) ∧
  (∀ (s : State) (n : Nat),
    s.shl n = { s with acc := { sign := s.acc.sign, mag := BitVec.ofNat 35 (s.acc.mag.toNat * 2 ^ n % 2 ^ 35) } } ∧
    s.shr n = { s with acc := { sign := s.acc.sign, mag := BitVec.ofNat 35 (s.acc.mag.toNat / 2 ^ n) } }) ∧
  (∀ (s : State) (n : Nat), 35 ≤ n → (s.shl n).acc.mag = 0#35 ∧ (s.shr n).acc.mag = 0#35) ∧
  (∀ s : State, s.shl 0 = s ∧ s.shr 0 = s)

/-- R140: R_ADD loads the operand, exactly; a zero operand of either sign gives +0; OV and all else
keep; the operand is read from memory as it was before the step. -/
def Obligations.ResetAddLoadsOperand : Prop :=
  defaultOpcodeMap 10#5 = some .rAdd ∧
  ∀ (sg : Bool) (a : Addr12) (s : State) (v : Int), v = s.readOperand (resolve sg a) →
    (∃ mag : Mag35, mag.toNat = v.natAbs ∧
      exec (.rAdd sg a) s = .next { s with acc := { sign := decide (v < 0), mag := mag } } ∧
      (∀ m, Executes m s (.rAdd sg a) → stepWith m s =
        .next { s with ic := s.ic + 1#12, acc := { sign := decide (v < 0), mag := mag } }) ∧
      Accumulator.value { sign := decide (v < 0), mag := mag } = v ∧
      (v = 0 → mag = 0#35 ∧ decide (v < 0) = false) ∧
      (sg = false → mag.toNat < 2 ^ 17))

/-- R112, R141: ADD leaves the exact sum's sign and its magnitude modulo 2^35, and sets OV exactly when
bits 18 and 19 of the magnitude, as a pair, changed. -/
def Obligations.AddSumsAndFlags : Prop :=
  defaultOpcodeMap 9#5 = some .add ∧
  ∀ (sg : Bool) (a : Addr12) (s : State) (sum : Int) (mag : Mag35),
    sum = (if s.acc.sign then -(s.acc.mag.toNat : Int) else s.acc.mag.toNat) + s.readOperand (resolve sg a) →
    mag = BitVec.ofNat 35 (sum.natAbs % 2 ^ 35) →
    ∀ ov : Bool, ov = !(decide (s.acc.mag.getLsbD 18 = mag.getLsbD 18) && decide (s.acc.mag.getLsbD 19 = mag.getLsbD 19)) →
    exec (.add sg a) s = .next { s with acc := { sign := decide (sum < 0), mag := mag }, ov := ov } ∧
    (∀ m, Executes m s (.add sg a) → stepWith m s =
      .next { s with ic := s.ic + 1#12, acc := { sign := decide (sum < 0), mag := mag }, ov := ov })

/-- 41_alu_accumulator.md R116, derived there from R112: when the sum is exact, what is lost when it is
not, and which zero a zero magnitude is. -/
def Obligations.AddIntegerLaws : Prop :=
  ∀ (s : State) (v sum : Int), v.natAbs ≤ 2 ^ 35 - 1 → sum = s.acc.value + v →
    sum.natAbs ≤ 2 ^ 36 - 2 ∧
    (sum.natAbs ≤ 2 ^ 35 - 1 → (s.addAcc v).acc.value = sum) ∧
    (2 ^ 35 ≤ sum.natAbs → (s.addAcc v).acc.value = sum.sign * (sum.natAbs - 2 ^ 35) ∧
      ((0 < s.acc.value ∧ 0 < v) ∨ (s.acc.value < 0 ∧ v < 0))) ∧
    (sum = 0 → (s.addAcc v).acc = { sign := false, mag := 0#35 }) ∧
    ((s.addAcc v).acc = { sign := true, mag := 0#35 } ↔ sum = -2 ^ 35)

/-- 41_alu_accumulator.md R117, derived there from R112: OV compares bits 19..18 of the magnitude as a
two-bit number, whatever OV was before. -/
def Obligations.OverflowComparesTwoBits : Prop :=
  ∀ (s : State) (v : Int), (s.addAcc v).ov =
    decide (s.acc.mag.toNat / 2 ^ 18 % 4 ≠ (s.addAcc v).acc.mag.toNat / 2 ^ 18 % 4)

/-- 41_alu_accumulator.md R118, derived there: minus zero acts as 0 in an add, R_ADD and RESET never leave
it, and no full-word STORE writes it. (R118's closing sentence does not hold of a half-word STORE, by
R150's own corner case; log 11.) -/
def Obligations.MinusZeroActsAsZero : Prop :=
  (∀ (s : State) (v : Int), s.acc = { sign := true, mag := 0#35 } →
    s.acc.value = 0 ∧ (s.addAcc v).acc = (s.clearAcc.addAcc v).acc) ∧
  (∀ (sg : Bool) (a : Addr12) (s t : State), exec (.rAdd sg a) s = .next t →
    t.acc ≠ { sign := true, mag := 0#35 }) ∧
  (∀ (a : Addr12) (s t : State), s.mem.wf = true → exec (.store true a) s = .next t →
    t.memRead (cellOf a) ≠ 0x800000000#36 ∧
    (s.acc = { sign := true, mag := 0#35 } → t.memRead (cellOf a) = 0#36)) ∧
  (∀ (a : Addr12) (s t : State), s.mem.wf = true → s.acc = { sign := true, mag := 0#35 } →
    exec (.store false a) s = .next t → t.fetchHalf a = 0#18)

/-! ### STORE (44_store.md) -/

/-- R150: STORE writes the accumulator's signed value to the full word or the half-word its logical
address names, and changes nothing else: every half-word outside the stored one reads as before. -/
def Obligations.StoreWritesAccumulator : Prop :=
  defaultOpcodeMap 12#5 = some .store ∧
  ∀ (a : Addr12) (s : State), s.mem.wf = true →
    (∃ t, exec (.store true a) s = .next t ∧ t = { s with mem := t.mem } ∧ t.mem.wf = true ∧
      t.memRead (cellOf a) = encodeFull s.acc.value ∧
      (t.memRead (cellOf a)).toNat = (if s.acc.value < 0 then 2 ^ 35 else 0) + s.acc.mag.toNat ∧
      ∀ n : Addr12, n.toNat / 2 ≠ a.toNat / 2 → t.fetchHalf n = s.fetchHalf n) ∧
    (∃ t, exec (.store false a) s = .next t ∧ t = { s with mem := t.mem } ∧ t.mem.wf = true ∧
      t.fetchHalf a = halfOf (encodeHalf s.acc.value (isHigh a)) (isHigh a) ∧
      (t.fetchHalf a).toNat = (if s.acc.value < 0 then 2 ^ 17 else 0) + s.acc.mag.toNat % 2 ^ 17 ∧
      ∀ n : Addr12, n ≠ a → t.fetchHalf n = s.fetchHalf n) ∧
    (s.acc.mag = 0#35 → s.acc.value = 0) ∧
    (∀ (m : OpcodeMap) (sg : Bool), Executes m s (.store sg a) →
      stepWith m s = exec (.store sg a) { s with ic := s.ic + 1#12 })

/-! ### Shifts (45_shift.md) -/

/-- R160: A_LEFT multiplies the magnitude by 2^ADDR modulo 2^35, whatever S; sign, OV and all else
keep. -/
def Obligations.LeftShiftMultiplies : Prop :=
  defaultOpcodeMap 22#5 = some .aLeft ∧
  ∀ (sg : Bool) (a : Addr12) (s : State), ∃ mag : Mag35,
    mag.toNat = s.acc.mag.toNat * 2 ^ a.toNat % 2 ^ 35 ∧
    exec (.aLeft sg a) s = .next { s with acc := { sign := s.acc.sign, mag := mag } } ∧
    (∀ m, Executes m s (.aLeft sg a) → stepWith m s =
      .next { s with ic := s.ic + 1#12, acc := { sign := s.acc.sign, mag := mag } }) ∧
    (a = 0#12 → mag = s.acc.mag) ∧ (35 ≤ a.toNat → mag = 0#35)

/-- R161: A_RIGHT divides the magnitude by 2^ADDR, truncating, whatever S; sign, OV and all else keep. -/
def Obligations.RightShiftDivides : Prop :=
  defaultOpcodeMap 23#5 = some .aRight ∧
  ∀ (sg : Bool) (a : Addr12) (s : State), ∃ mag : Mag35,
    mag.toNat = s.acc.mag.toNat / 2 ^ a.toNat ∧
    exec (.aRight sg a) s = .next { s with acc := { sign := s.acc.sign, mag := mag } } ∧
    (∀ m, Executes m s (.aRight sg a) → stepWith m s =
      .next { s with ic := s.ic + 1#12, acc := { sign := s.acc.sign, mag := mag } }) ∧
    (a = 0#12 → mag = s.acc.mag) ∧ (35 ≤ a.toNat → mag = 0#35)

/-! ### Unimplemented operations and faults (46_unimplemented.md, 60_exceptions.md) -/

/-- R170, R201, R202, R203: the fault action of both conditions, under every OPCODE_MAP: FAULT records kind,
OP field, slot and word, RUN becomes Faulted, IC keeps the advance, nothing else changes, and no later
step changes the fault state. Under the default map InvalidOpcode does not occur. -/
def Obligations.FaultActionIsPrecise : Prop :=
  ∀ (m : OpcodeMap) (s : State) (h : Half18), s.run = .running → s.fetchHalf s.ic = h →
    (m (opField h) = none → stepWith m s =
      .next { s with
        ic := s.ic + 1#12
        run := .faulted
        fault := { kind := .invalidOpcode, op := opField h, atSlot := s.ic, word := h } }) ∧
    (∀ op, m (opField h) = some op → op.implemented = false → stepWith m s =
      .next { s with
        ic := s.ic + 1#12
        run := .faulted
        fault := { kind := .unimplementedOperation, op := opField h, atSlot := s.ic, word := h } }) ∧
    (∀ t, step s = .next t → s.fault.kind ≠ .invalidOpcode → t.fault.kind ≠ .invalidOpcode) ∧
    (∀ (m' : OpcodeMap) (t : State), t.run = .faulted → stepWith m' t = .next t)

/-- From 46_unimplemented.md R171 to R178: TR_OV, TR_PLUS, TR_ZERO, SUB, R_SUB, SUB_AB, NO_OP and ADD_AB take
the fault action with their OP value, whatever S and ADDR are.
The clause on `exec` alone takes op, slot and word from slot IC - 1, which is the model's reading (log 6,
DEDUCED) and no rule of the spec; the clause on `step` is the rules'. -/
def Obligations.TransfersAndSubtractsFault : Prop :=
  ∀ p ∈ [(Instr.trOv, 2#5), (.trPlus, 3#5), (.trZero, 4#5), (.sub, 5#5), (.rSub, 6#5), (.subAb, 7#5),
      (.noOp, 8#5), (.addAb, 11#5)],
    (∀ (sg : Bool) (a : Addr12) (s : State), exec (p.1 sg a) s =
      .next { s with
        run := .faulted
        fault := { kind := .unimplementedOperation, op := opField (s.fetchHalf (s.ic - 1#12))
                   atSlot := s.ic - 1#12, word := s.fetchHalf (s.ic - 1#12) } }) ∧
    (∀ (s : State) (h : Half18), s.run = .running → s.fetchHalf s.ic = h → opField h = p.2 →
      decode defaultOpcodeMap h = .ok (p.1 (signField h) (addrField h)) ∧
      step s = .next { s with
        ic := s.ic + 1#12
        run := .faulted
        fault := { kind := .unimplementedOperation, op := p.2, atSlot := s.ic, word := h } })

/-- From 46_unimplemented.md R179 to R187: STORE_A, STORE_MQ, LOAD_MQ, MPY, MPY_R, DIV, ROUND, L_LEFT and L_RIGHT
take the fault action with their OP value, whatever S and ADDR are.
The clause on `exec` alone takes op, slot and word from slot IC - 1, which is the model's reading (log 6,
DEDUCED) and no rule of the spec; the clause on `step` is the rules'. -/
def Obligations.MultiplierOperationsFault : Prop :=
  ∀ p ∈ [(Instr.storeA, 13#5), (.storeMq, 14#5), (.loadMq, 15#5), (.mpy, 16#5), (.mpyR, 17#5), (.div, 18#5),
      (.round, 19#5), (.lLeft, 20#5), (.lRight, 21#5)],
    (∀ (sg : Bool) (a : Addr12) (s : State), exec (p.1 sg a) s =
      .next { s with
        run := .faulted
        fault := { kind := .unimplementedOperation, op := opField (s.fetchHalf (s.ic - 1#12))
                   atSlot := s.ic - 1#12, word := s.fetchHalf (s.ic - 1#12) } }) ∧
    (∀ (s : State) (h : Half18), s.run = .running → s.fetchHalf s.ic = h → opField h = p.2 →
      decode defaultOpcodeMap h = .ok (p.1 (signField h) (addrField h)) ∧
      step s = .next { s with
        ic := s.ic + 1#12
        run := .faulted
        fault := { kind := .unimplementedOperation, op := p.2, atSlot := s.ic, word := h } })

/-- From 46_unimplemented.md R188 to R195: READ, READ_B, WRITE, WRITE_EF, REWIND, SET_DR, SENSE and COPY take the
fault action with their OP value, whatever S and ADDR are; no tape is touched.
The clause on `exec` alone takes op, slot and word from slot IC - 1, which is the model's reading (log 6,
DEDUCED) and no rule of the spec; the clause on `step` is the rules'. -/
def Obligations.InputOutputOperationsFault : Prop :=
  ∀ p ∈ [(Instr.read, 24#5), (.readB, 25#5), (.write, 26#5), (.writeEf, 27#5), (.rewind, 28#5), (.setDr, 29#5),
      (.sense, 30#5), (.copy, 31#5)],
    (∀ (sg : Bool) (a : Addr12) (s : State), exec (p.1 sg a) s =
      .next { s with
        run := .faulted
        fault := { kind := .unimplementedOperation, op := opField (s.fetchHalf (s.ic - 1#12))
                   atSlot := s.ic - 1#12, word := s.fetchHalf (s.ic - 1#12) } }) ∧
    (∀ (s : State) (h : Half18), s.run = .running → s.fetchHalf s.ic = h → opField h = p.2 →
      decode defaultOpcodeMap h = .ok (p.1 (signField h) (addrField h)) ∧
      step s = .next { s with
        ic := s.ic + 1#12
        run := .faulted
        fault := { kind := .unimplementedOperation, op := p.2, atSlot := s.ic, word := h } })

/-- 30_encoding.md R73, derived there: a blank slot is fetched like any other half-word and faults as OP 31;
as data it reads as -131071. -/
def Obligations.BlankSlotFaults : Prop :=
  (∀ s : State, s.run = .running → s.fetchHalf s.ic = 0x3FFFF#18 →
    step s = .next { s with
      ic := s.ic + 1#12
      run := .faulted
      fault := { kind := .unimplementedOperation, op := 31#5, atSlot := s.ic, word := 0x3FFFF#18 } }) ∧
  (∀ (m : OpcodeMap) (s : State), m 31#5 = none → s.run = .running → s.fetchHalf s.ic = 0x3FFFF#18 →
    stepWith m s = .next { s with
      ic := s.ic + 1#12
      run := .faulted
      fault := { kind := .invalidOpcode, op := 31#5, atSlot := s.ic, word := 0x3FFFF#18 } }) ∧
  (∀ (w : Word36) (p : Bool), halfOf w p = 0x3FFFF#18 → decodeHalf w p = -131071)

/-- 60_exceptions.md R209: in Faulted a step under every OPCODE_MAP, any number of the machine's steps issued
one after another (`Host.Core.run`, which asks `step` each time whatever RUN is), a run under any budget,
and START change nothing; RESET leaves it. -/
def Obligations.FaultedIsTerminal : Prop :=
  ∀ s : State, s.run = .faulted →
    (∀ m : OpcodeMap, stepWith m s = .next s) ∧
    (∀ n : Nat, Host.Core.run Sys2Proof.core n s = .next s) ∧
    (∀ (m : OpcodeMap) (n : Nat), runBudget m n s = .next s) ∧ s.start = s ∧
    (∀ memInit ov image, image.length ≤ 2048 →
      (s.hostReset memInit ov image).run = .running ∧ (s.hostReset memInit ov image).fault = FaultRecord.clear)

/-! ### What writes each piece of state (10_state.md) -/

/-- R23: OV changes only in a step that executes ADD, which recomputes it whatever it was; no instruction
reads it; insert, the accumulator clear, the shifts and START leave it, and RESET gives it OV_INIT. -/
def Obligations.OnlyAddWritesOverflow : Prop :=
  (∀ (m : OpcodeMap) (s t : State), (∀ sg a, ¬ Executes m s (.add sg a)) → stepWith m s = .next t → t.ov = s.ov) ∧
  (∀ (m : OpcodeMap) (s : State) (sg : Bool) (a : Addr12) (b : Bool), Executes m s (.add sg a) →
    stepWith m { s with ov := b } = stepWith m s) ∧
  (∀ (m : OpcodeMap) (s t : State) (b : Bool), (∀ sg a, ¬ Executes m s (.add sg a)) → stepWith m s = .next t →
    stepWith m { s with ov := b } = .next { t with ov := b }) ∧
  (∀ (s : State) (v : Int), (s.insert v).ov = s.ov ∧ s.clearAcc.ov = s.ov) ∧
  (∀ (s : State) (n : Nat), (s.shl n).ov = s.ov ∧ (s.shr n).ov = s.ov) ∧
  (∀ s : State, s.start.ov = s.ov) ∧
  (∀ memInit ov image (s : State), image.length ≤ 2048 → (s.hostReset memInit ov image).ov = ov)

/-- 10_state.md R22 and 40_cycle.md R97: ACC changes only in a step that executes R_ADD, ADD, A_LEFT or
A_RIGHT; the shifts keep its sign. -/
def Obligations.AccumulatorWriters : Prop :=
  ∀ (m : OpcodeMap) (s t : State), stepWith m s = .next t →
    ((∀ sg a, ¬ Executes m s (.rAdd sg a) ∧ ¬ Executes m s (.add sg a) ∧ ¬ Executes m s (.aLeft sg a) ∧
      ¬ Executes m s (.aRight sg a)) → t.acc = s.acc) ∧
    (∀ sg a, (Executes m s (.aLeft sg a) ∨ Executes m s (.aRight sg a)) → t.acc.sign = s.acc.sign)

/-- 44_store.md and 40_cycle.md R97: memory changes only in a step that executes STORE; in every other step
every half-word reads as before. -/
def Obligations.OnlyStoreWritesMemory : Prop :=
  ∀ (m : OpcodeMap) (s t : State), (∀ sg a, ¬ Executes m s (.store sg a)) → stepWith m s = .next t →
    t.mem = s.mem ∧ ∀ n : Addr12, t.fetchHalf n = s.fetchHalf n

/-- R26: FAULT is written only by the fault action, so a step that does not fault and START leave it, and
only RESET clears it. -/
def Obligations.OnlyFaultsWriteFaultRegister : Prop :=
  (∀ (m : OpcodeMap) (s t : State), stepWith m s = .next t → t.fault ≠ s.fault →
    s.run = .running ∧ t.run = .faulted ∧ t.fault.kind ≠ .none ∧
      t.fault = { kind := t.fault.kind, op := opField (s.fetchHalf s.ic), atSlot := s.ic, word := s.fetchHalf s.ic }) ∧
  (∀ s : State, s.start.fault = s.fault) ∧
  (∀ memInit ov image (s : State), image.length ≤ 2048 →
    (s.hostReset memInit ov image).fault = { kind := .none, op := 0#5, atSlot := 0#12, word := 0#18 })

/-- 10_state.md R23 and R26: no instruction reads OV or FAULT, so two machines that differ only there stay
alike in memory, ACC, IC and RUN, step by step. -/
def Obligations.OverflowAndFaultAreNeverRead : Prop :=
  ∀ (m : OpcodeMap) (n : Nat) (s t s' : State), ProgramAlike s t → runBudget m n s = .next s' →
    ∃ t', runBudget m n t = .next t' ∧ ProgramAlike s' t'

/-! ### Reset and the host interface (10_state.md section 6, 70_reset_and_hazards.md) -/

/-- R30, R230: RESET with an image of at most 2048 containers, for every MEM_INIT and OV_INIT, in any run
state; a longer image is refused and changes nothing. -/
def Obligations.HostResetLoadsImage : Prop :=
  ∀ (memInit : Nat → Word36) (ovInit : Bool) (image : List Container) (s : State),
    (image.length ≤ 2048 →
      (∀ (c : CellIx) (w : Container), image[c.toNat]? = some w →
        ((s.hostReset memInit ovInit image).memRead c).toNat = w.toNat % 2 ^ 36) ∧
      (∀ c : CellIx, image.length ≤ c.toNat → (s.hostReset memInit ovInit image).memRead c = memInit c.toNat) ∧
      (s.hostReset memInit ovInit image).ic = 0#12 ∧
      (s.hostReset memInit ovInit image).run = .running ∧
      (s.hostReset memInit ovInit image).acc = { sign := false, mag := 0#35 } ∧
      (s.hostReset memInit ovInit image).ov = ovInit ∧
      (s.hostReset memInit ovInit image).fault = { kind := .none, op := 0#5, atSlot := 0#12, word := 0#18 } ∧
      (s.hostReset memInit ovInit image).mem.wf = true) ∧
    (2048 < image.length → s.hostReset memInit ovInit image = s)

/-- R231: the first STEP after RESET fetches the low half of the image's first word. -/
def Obligations.FirstFetchIsImageStart : Prop :=
  ∀ (m : OpcodeMap) (memInit : Nat → Word36) (ov : Bool) (image : List Container) (w : Container) (s : State),
    (w :: image).length ≤ 2048 →
      ((s.hostReset memInit ov (w :: image)).fetchHalf (s.hostReset memInit ov (w :: image)).ic).toNat =
        w.toNat % 2 ^ 18 ∧
      ∀ i, decode m (BitVec.ofNat 18 w.toNat) = .ok i → Executes m (s.hostReset memInit ov (w :: image)) i

/-- 70_reset_and_hazards.md R230 with no image. The model's choices MEM_INIT = 0 (log 2) and OV_INIT = 0
(log 3) make it the state the interface calls reset. -/
def Obligations.ResetStateIsEmptyHostReset : Prop :=
  ∀ s : State, State.reset = s.hostReset (fun _ => 0#36) false []

/-- R242: START resumes a halted machine at its IC and changes nothing else; it does nothing otherwise. -/
def Obligations.StartResumesHalted : Prop :=
  (∀ s : State, s.run = .halted → s.start = { s with run := .running }) ∧
  (∀ s : State, s.run = .running ∨ s.run = .faulted → s.start = s) ∧
  (∀ (m : OpcodeMap) (s : State) (i : Instr), s.run = .halted → decode m (s.fetchHalf s.ic) = .ok i →
    stepWith m s.start = exec i { s with run := .running, ic := s.ic + 1#12 })

/-- R240: the snapshot is the whole state, memory as its 2048 cells in order, RUN as its code (R25) and
FAULT.kind as its code (R204). -/
def Obligations.SnapshotReadsWholeState : Prop :=
  ∀ s : State,
    s.snapshot.ic = s.ic ∧ s.snapshot.accSign = s.acc.sign ∧ s.snapshot.accMag = s.acc.mag ∧ s.snapshot.ov = s.ov ∧
    s.snapshot.mem.length = 2048 ∧ (∀ c : CellIx, s.snapshot.mem[c.toNat]? = some (s.memRead c)) ∧
    (s.snapshot.run.toNat = match s.run with | .running => 0 | .halted => 1 | .faulted => 2) ∧
    (s.snapshot.faultKind.toNat =
      match s.fault.kind with | .none => 0 | .invalidOpcode => 1 | .unimplementedOperation => 2) ∧
    s.snapshot.faultOp = s.fault.op ∧ s.snapshot.faultAt = s.fault.atSlot ∧ s.snapshot.faultWord = s.fault.word

/-- Two states with canonical memories and equal snapshots are one state: the snapshot leaves nothing out
(70_reset_and_hazards.md R240), and equal contents are equal data (log 1). -/
def Obligations.SnapshotDeterminesState : Prop :=
  ∀ s t : State, s.mem.wf = true → t.mem.wf = true → s.snapshot = t.snapshot → s = t

/-- 70_reset_and_hazards.md R241, R244: a budget of 0 issues no step; in Running a budget of n + 1 is one
step and then a budget of n; in Halted and Faulted no step is issued. A budget n leaves RUN = Running
exactly when every budget up to and including n does; it has then run out, IC is at the next instruction,
and one STEP more runs it. Under the default map the result is that of n of the machine's steps. So a
budget can be issued in parts, and once a run has ended the rest of the budget changes nothing. -/
def Obligations.BudgetRunsCompose : Prop :=
  (∀ (m : OpcodeMap) (s : State), runBudget m 0 s = .next s) ∧
  (∀ (m : OpcodeMap) (n : Nat) (s : State), s.run = .running →
    ∃ t, stepWith m s = .next t ∧ runBudget m (n + 1) s = runBudget m n t) ∧
  (∀ (m : OpcodeMap) (n : Nat) (s : State), s.run = .halted ∨ s.run = .faulted → runBudget m n s = .next s) ∧
  (∀ (m : OpcodeMap) (n : Nat) (s t : State), runBudget m n s = .next t →
    (t.run = .running ↔ ∀ k, k ≤ n → ∃ u, runBudget m k s = .next u ∧ u.run = .running) ∧
    (t.run = .running → runBudget m (n + 1) s = stepWith m t ∧
      ∀ i, decode m (t.fetchHalf t.ic) = .ok i → stepWith m t = exec i { t with ic := t.ic + 1#12 })) ∧
  (∀ (n : Nat) (s : State), runBudget defaultOpcodeMap n s = Host.Core.run Sys2Proof.core n s) ∧
  (∀ (m : OpcodeMap) (k n : Nat) (s t : State), runBudget m k s = .next t →
    runBudget m (k + n) s = runBudget m n t) ∧
  (∀ (m : OpcodeMap) (k n : Nat) (s t : State), runBudget m k s = .next t → t.ended = true →
    runBudget m (k + n) s = .next t)

/-- The host's placing of one instruction (log 9): the next step fetches the half-word whose bits were given,
and nothing but that half-word and RUN changes. -/
def Obligations.PlacedWordIsFetchedNext : Prop :=
  ∀ (s : State) (nbits w : Nat), s.mem.wf = true → w < 2 ^ 18 → w < 2 ^ nbits →
    (s.withFetchWord nbits w).run = .running ∧
    (s.withFetchWord nbits w).fetchHalf s.ic = BitVec.ofNat 18 w ∧
    (∀ n : Addr12, n ≠ s.ic → (s.withFetchWord nbits w).fetchHalf n = s.fetchHalf n) ∧
    s.withFetchWord nbits w = { s with mem := (s.withFetchWord nbits w).mem, run := .running } ∧
    (∀ i, decodeTableWord nbits w = some i →
      step (s.withFetchWord nbits w) = exec i (s.withFetchWord nbits w).advance)

/-! ### The invariant -/

/-- The state after reset meets the invariant. -/
def Obligations.ResetMeetsInvariant : Prop := State.reset.Inv

/-- Every step, from every state that meets the invariant, under every OPCODE_MAP, leaves a state that
meets it: memory stays in canonical form within its 2048 cells, FAULT stays clear until a fault, and in
Faulted FAULT is the true record of the instruction at its slot (10_state.md R26, R28, 60_exceptions.md
R201). -/
def Obligations.StepKeepsInvariant : Prop :=
  ∀ (m : OpcodeMap) (s t : State), s.Inv → stepWith m s = .next t → t.Inv

/-- RESET and START keep the invariant (70_reset_and_hazards.md R230, R242). -/
def Obligations.HostEventsKeepInvariant : Prop :=
  ∀ s : State, s.Inv → s.start.Inv ∧ ∀ memInit ov image, (s.hostReset memInit ov image).Inv
end

