-- ==== Sys2Proof/Laws/Codec.lean ====
section
/-! SUPPORT. Halves of a word, and the bounds of the word codec. -/

namespace Sys2Proof.Machine

/-- A bit of a word written as two half-words. -/
theorem getLsbD_halves (x y : Half18) (i : Nat) :
    BitVec.getLsbD (x ++ y : Word36) i = if i < 18 then y.getLsbD i else x.getLsbD (i - 18) :=
  BitVec.getLsbD_append

/-- The half that was replaced reads as its new field. -/
@[simp] theorem halfOf_mergeHalf_same (w : Word36) (p : Bool) (f : Half18) : halfOf (mergeHalf w p f) p = f := by
  cases p <;> simp only [halfOf, mergeHalf, Bool.false_eq_true, if_true, if_false] <;> ext i hi <;>
    simp [getLsbD_halves, hi]

/-- The other half is kept. -/
theorem halfOf_mergeHalf_other (w : Word36) {p q : Bool} (h : q ≠ p) (f : Half18) :
    halfOf (mergeHalf w p f) q = halfOf w q := by
  cases p <;> cases q <;> first | exact absurd rfl h | skip
  all_goals
    simp only [halfOf, mergeHalf, Bool.false_eq_true, if_true, if_false]
    ext i hi
    simp [getLsbD_halves, hi]

/-- The field that encodeHalf places (R64). -/
@[simp] theorem halfOf_encodeHalf (v : Int) (p : Bool) : halfOf (encodeHalf v p) p = halfField v :=
  halfOf_mergeHalf_same 0#36 p (halfField v)

/-- A word is its two halves. -/
theorem word_eq_of_halves {w x : Word36} (hl : halfOf w false = halfOf x false) (hh : halfOf w true = halfOf x true) :
    w = x := by
  simp only [halfOf, Bool.false_eq_true, if_true, if_false] at hl hh
  ext i hi
  by_cases h : i < 18
  · have := congrArg (fun f => f.getLsbD i) hl
    simpa [h, BitVec.getLsbD_eq_getElem hi] using this
  · have := congrArg (fun f => f.getLsbD (i - 18)) hh
    have e : 18 + (i - 18) = i := by omega
    have l : i - 18 < 18 := by omega
    simpa [h, l, e, BitVec.getLsbD_eq_getElem hi] using this

theorem SM_natAbs (s : Bool) (m : Nat) : (SM s m).natAbs = m := by cases s <;> simp [SM]

/-- A full word's value is within ±(2^35 - 1). -/
theorem natAbs_decodeFull_lt (w : Word36) : (decodeFull w).natAbs < 2 ^ 35 := by
  rw [decodeFull, SM_natAbs]; exact BitVec.isLt _

/-- A half-word's value is within ±(2^17 - 1). -/
theorem natAbs_fieldValue_lt (f : Half18) : (fieldValue f).natAbs < 2 ^ 17 := by
  rw [fieldValue, SM_natAbs]; exact BitVec.isLt _

theorem natAbs_decodeHalf_lt (w : Word36) (p : Bool) : (decodeHalf w p).natAbs < 2 ^ 17 :=
  natAbs_fieldValue_lt _

/-- A 36-bit sign-magnitude pattern as a number. -/
theorem toNat_sign35 (b : Bool) (m : BitVec 35) :
    (BitVec.ofBool b ++ m : Word36).toNat = (if b then 2 ^ 35 else 0) + m.toNat := by
  have h := BitVec.toNat_append (BitVec.ofBool b) m
  have h' : (BitVec.ofBool b ++ m : Word36).toNat = (BitVec.ofBool b).toNat <<< 35 ||| m.toNat := h
  rw [h', ← Nat.shiftLeft_add_eq_or_of_lt m.isLt]
  cases b <;> simp

/-- An 18-bit sign-magnitude field as a number. -/
theorem toNat_sign17 (b : Bool) (m : BitVec 17) :
    (BitVec.ofBool b ++ m : Half18).toNat = (if b then 2 ^ 17 else 0) + m.toNat := by
  have h := BitVec.toNat_append (BitVec.ofBool b) m
  have h' : (BitVec.ofBool b ++ m : Half18).toNat = (BitVec.ofBool b).toNat <<< 17 ||| m.toNat := h
  rw [h', ← Nat.shiftLeft_add_eq_or_of_lt m.isLt]
  cases b <;> simp

/-- A word as a number, from its two halves. -/
theorem toNat_halves (x y : Half18) : (x ++ y : Word36).toNat = x.toNat * 2 ^ 18 + y.toNat := by
  have h := BitVec.toNat_append x y
  have h' : (x ++ y : Word36).toNat = x.toNat <<< 18 ||| y.toNat := h
  rw [h', ← Nat.shiftLeft_add_eq_or_of_lt y.isLt, Nat.shiftLeft_eq]

/-- A half of a word as a number. -/
theorem halfOf_toNat (w : Word36) (p : Bool) : (halfOf w p).toNat = w.toNat / (if p then 2 ^ 18 else 1) % 2 ^ 18 := by
  cases p <;> simp [halfOf, Nat.shiftRight_eq_div_pow]

end Sys2Proof.Machine
end

