-- ==== Sys2Proof/Laws/Memory.lean ====
section
/-! SUPPORT. Memory: a read after a write, and that every memory operation keeps the canonical form. -/

namespace Sys2Proof.Machine

@[simp] theorem Memory.read_nil (a : Nat) : Memory.read [] a = Memory.unlisted := rfl

theorem Memory.read_cons_pair (b : Nat) (x : Word36) (m : Memory) (a : Nat) :
    Memory.read ((b, x) :: m) a = if a = b then x else m.read a := rfl

/-- Canonical from a bound stays canonical from a lower one. -/
theorem Memory.wfFrom_mono {lo lo' : Nat} (h : lo' ≤ lo) {m : Memory} (hm : m.wfFrom lo = true) :
    m.wfFrom lo' = true := by
  cases m with
  | nil => rfl
  | cons e m =>
    obtain ⟨b, x⟩ := e
    simp only [Memory.wfFrom, Bool.and_eq_true, decide_eq_true_eq] at hm ⊢
    exact ⟨⟨⟨by omega, hm.1.1.2⟩, hm.1.2⟩, hm.2⟩

/-- A cell below the bound is not listed. -/
theorem Memory.read_below {lo : Nat} {m : Memory} (hm : m.wfFrom lo = true) {a : Nat} (ha : a < lo) :
    m.read a = Memory.unlisted := by
  induction m generalizing lo with
  | nil => rfl
  | cons e m ih =>
    obtain ⟨b, x⟩ := e
    simp only [Memory.wfFrom, Bool.and_eq_true, decide_eq_true_eq] at hm
    rw [Memory.read_cons_pair, if_neg (by omega)]
    exact ih hm.2 (by omega)

theorem Memory.read_cons_same {a : Nat} {m : Memory} (w : Word36) (hm : m.read a = Memory.unlisted) :
    (Memory.cons a w m).read a = w := by
  unfold Memory.cons
  split
  · next h => rw [hm, h]
  · simp [Memory.read_cons_pair]

theorem Memory.read_cons_other {a b : Nat} (h : b ≠ a) (w : Word36) (m : Memory) :
    (Memory.cons a w m).read b = m.read b := by
  unfold Memory.cons
  split
  · rfl
  · simp [Memory.read_cons_pair, h]

theorem Memory.wfFrom_cons {a lo : Nat} {m : Memory} (w : Word36) (hlo : lo ≤ a) (ha : a < memCells)
    (hm : m.wfFrom (a + 1) = true) : (Memory.cons a w m).wfFrom lo = true := by
  unfold Memory.cons
  split
  · exact Memory.wfFrom_mono (by omega) hm
  · next h => simp [Memory.wfFrom, hlo, ha, h, hm]

/-- The cell written reads as the word written. -/
theorem Memory.read_write_same {lo : Nat} {m : Memory} (hm : m.wfFrom lo = true) (a : Nat) (w : Word36) :
    (m.write a w).read a = w := by
  induction m generalizing lo with
  | nil => exact Memory.read_cons_same w rfl
  | cons e m ih =>
    obtain ⟨b, x⟩ := e
    simp only [Memory.wfFrom, Bool.and_eq_true, decide_eq_true_eq] at hm
    simp only [Memory.write]
    split
    · next h =>
      refine Memory.read_cons_same w ?_
      rw [Memory.read_cons_pair, if_neg (by omega)]
      exact Memory.read_below hm.2 (by omega)
    · split
      · next h => exact Memory.read_cons_same w (Memory.read_below hm.2 (by omega))
      · next h => rw [Memory.read_cons_pair, if_neg h]; exact ih hm.2

/-- Every other cell reads as before. -/
theorem Memory.read_write_other {a b : Nat} (h : b ≠ a) (m : Memory) (w : Word36) :
    (m.write a w).read b = m.read b := by
  induction m with
  | nil => exact Memory.read_cons_other h w []
  | cons e m ih =>
    obtain ⟨c, x⟩ := e
    simp only [Memory.write]
    split
    · exact Memory.read_cons_other h w _
    · split
      · next hc => rw [Memory.read_cons_other h, Memory.read_cons_pair, if_neg (by omega)]
      · rw [Memory.read_cons_pair, Memory.read_cons_pair, ih]

theorem Memory.wfFrom_write {lo a : Nat} {m : Memory} (w : Word36) (hlo : lo ≤ a) (ha : a < memCells)
    (hm : m.wfFrom lo = true) : (m.write a w).wfFrom lo = true := by
  induction m generalizing lo with
  | nil => exact Memory.wfFrom_cons w hlo ha rfl
  | cons e m ih =>
    obtain ⟨b, x⟩ := e
    have hm' := hm
    simp only [Memory.wfFrom, Bool.and_eq_true, decide_eq_true_eq] at hm
    obtain ⟨⟨⟨h1, h2⟩, h3⟩, h4⟩ := hm
    simp only [Memory.write]
    split
    · next h =>
      refine Memory.wfFrom_cons w hlo ha ?_
      simp [Memory.wfFrom, h2, h3, h4, Nat.succ_le_of_lt h]
    · split
      · next h => subst h; exact Memory.wfFrom_cons w hlo ha h4
      · next h h' => simp [Memory.wfFrom, h1, h2, h3, ih (lo := b + 1) (by omega) h4]

/-- A write to an existing cell keeps the canonical form. -/
theorem Memory.wf_write {m : Memory} (hm : m.wf = true) {a : Nat} (ha : a < memCells) (w : Word36) :
    (m.write a w).wf = true := Memory.wfFrom_write w (Nat.zero_le a) ha hm

theorem Memory.wfFrom_ofCells (f : Nat → Word36) (lo n : Nat) (h : lo + n ≤ memCells) :
    (Memory.ofCells f lo n).wfFrom lo = true := by
  induction n generalizing lo with
  | zero => rfl
  | succ n ih => exact Memory.wfFrom_cons _ (Nat.le_refl lo) (by omega) (ih (lo + 1) (by omega))

/-- A memory built cell by cell holds what it was built from. -/
theorem Memory.read_ofCells (f : Nat → Word36) (lo n : Nat) (h : lo + n ≤ memCells) {a : Nat} (hlo : lo ≤ a)
    (ha : a < lo + n) : (Memory.ofCells f lo n).read a = f a := by
  induction n generalizing lo with
  | zero => omega
  | succ n ih =>
    have hw := Memory.wfFrom_ofCells f (lo + 1) n (by omega)
    simp only [Memory.ofCells]
    by_cases e : a = lo
    · subst e; exact Memory.read_cons_same _ (Memory.read_below hw (by omega))
    · rw [Memory.read_cons_other e]; exact ih (lo + 1) (by omega) (by omega) (by omega)

/-- The memory RESET builds is canonical. -/
theorem Memory.wf_ofCells (f : Nat → Word36) : (Memory.ofCells f 0 memCells).wf = true :=
  Memory.wfFrom_ofCells f 0 memCells (by decide)

theorem Memory.wf_reset : State.reset.mem.wf = true := rfl

/-- Equal contents are equal data: two canonical memories that read alike are the same list. -/
theorem Memory.ext_of_wfFrom {lo : Nat} {m m' : Memory} (hm : m.wfFrom lo = true) (hm' : m'.wfFrom lo = true)
    (h : ∀ a, m.read a = m'.read a) : m = m' := by
  induction m generalizing lo m' with
  | nil =>
    cases m' with
    | nil => rfl
    | cons e m' =>
      obtain ⟨b, x⟩ := e
      simp only [Memory.wfFrom, Bool.and_eq_true, decide_eq_true_eq] at hm'
      have := h b
      rw [Memory.read_cons_pair, if_pos rfl] at this
      exact absurd this.symm hm'.1.2
  | cons e m ih =>
    obtain ⟨b, x⟩ := e
    cases m' with
    | nil =>
      simp only [Memory.wfFrom, Bool.and_eq_true, decide_eq_true_eq] at hm
      have := h b
      rw [Memory.read_cons_pair, if_pos rfl] at this
      exact absurd this hm.1.2
    | cons e' m' =>
      obtain ⟨b', x'⟩ := e'
      have k := hm; have k' := hm'
      simp only [Memory.wfFrom, Bool.and_eq_true, decide_eq_true_eq] at hm hm'
      have hb : b = b' := by
        rcases Nat.lt_trichotomy b b' with hlt | heq | hgt
        · have := h b
          rw [Memory.read_cons_pair, if_pos rfl, Memory.read_cons_pair, if_neg (by omega),
            Memory.read_below hm'.2 (by omega)] at this
          exact absurd this hm.1.2
        · exact heq
        · have := h b'
          rw [Memory.read_cons_pair, if_neg (by omega), Memory.read_below hm.2 (by omega),
            Memory.read_cons_pair, if_pos rfl] at this
          exact absurd this.symm hm'.1.2
      subst hb
      have hx := h b
      simp only [Memory.read_cons_pair, if_true] at hx
      subst hx
      congr 1
      refine ih hm.2 hm'.2 fun a => ?_
      by_cases ha : a = b
      · subst ha; rw [Memory.read_below hm.2 (by omega), Memory.read_below hm'.2 (by omega)]
      · have := h a
        rwa [Memory.read_cons_pair, if_neg ha, Memory.read_cons_pair, if_neg ha] at this

end Sys2Proof.Machine
end

