-- ==== Sys2Proof/Laws/State.lean ====
section
/-! SUPPORT. What each named update of State does to each field: one lemma per field per update. -/

namespace Sys2Proof.Machine

@[simp] theorem State.setIc_mem (s : State) (v : Addr12) : (s.setIc v).mem = s.mem := rfl
@[simp] theorem State.setIc_acc (s : State) (v : Addr12) : (s.setIc v).acc = s.acc := rfl
@[simp] theorem State.setIc_ov (s : State) (v : Addr12) : (s.setIc v).ov = s.ov := rfl
@[simp] theorem State.setIc_ic (s : State) (v : Addr12) : (s.setIc v).ic = v := rfl
@[simp] theorem State.setIc_run (s : State) (v : Addr12) : (s.setIc v).run = s.run := rfl
@[simp] theorem State.setIc_fault (s : State) (v : Addr12) : (s.setIc v).fault = s.fault := rfl

@[simp] theorem State.setAcc_mem (s : State) (v : Accumulator) : (s.setAcc v).mem = s.mem := rfl
@[simp] theorem State.setAcc_acc (s : State) (v : Accumulator) : (s.setAcc v).acc = v := rfl
@[simp] theorem State.setAcc_ov (s : State) (v : Accumulator) : (s.setAcc v).ov = s.ov := rfl
@[simp] theorem State.setAcc_ic (s : State) (v : Accumulator) : (s.setAcc v).ic = s.ic := rfl
@[simp] theorem State.setAcc_run (s : State) (v : Accumulator) : (s.setAcc v).run = s.run := rfl
@[simp] theorem State.setAcc_fault (s : State) (v : Accumulator) : (s.setAcc v).fault = s.fault := rfl

@[simp] theorem State.setOv_mem (s : State) (v : Bool) : (s.setOv v).mem = s.mem := rfl
@[simp] theorem State.setOv_acc (s : State) (v : Bool) : (s.setOv v).acc = s.acc := rfl
@[simp] theorem State.setOv_ov (s : State) (v : Bool) : (s.setOv v).ov = v := rfl
@[simp] theorem State.setOv_ic (s : State) (v : Bool) : (s.setOv v).ic = s.ic := rfl
@[simp] theorem State.setOv_run (s : State) (v : Bool) : (s.setOv v).run = s.run := rfl
@[simp] theorem State.setOv_fault (s : State) (v : Bool) : (s.setOv v).fault = s.fault := rfl

@[simp] theorem State.setRun_mem (s : State) (v : RunState) : (s.setRun v).mem = s.mem := rfl
@[simp] theorem State.setRun_acc (s : State) (v : RunState) : (s.setRun v).acc = s.acc := rfl
@[simp] theorem State.setRun_ov (s : State) (v : RunState) : (s.setRun v).ov = s.ov := rfl
@[simp] theorem State.setRun_ic (s : State) (v : RunState) : (s.setRun v).ic = s.ic := rfl
@[simp] theorem State.setRun_run (s : State) (v : RunState) : (s.setRun v).run = v := rfl
@[simp] theorem State.setRun_fault (s : State) (v : RunState) : (s.setRun v).fault = s.fault := rfl

@[simp] theorem State.setFault_mem (s : State) (v : FaultRecord) : (s.setFault v).mem = s.mem := rfl
@[simp] theorem State.setFault_acc (s : State) (v : FaultRecord) : (s.setFault v).acc = s.acc := rfl
@[simp] theorem State.setFault_ov (s : State) (v : FaultRecord) : (s.setFault v).ov = s.ov := rfl
@[simp] theorem State.setFault_ic (s : State) (v : FaultRecord) : (s.setFault v).ic = s.ic := rfl
@[simp] theorem State.setFault_run (s : State) (v : FaultRecord) : (s.setFault v).run = s.run := rfl
@[simp] theorem State.setFault_fault (s : State) (v : FaultRecord) : (s.setFault v).fault = v := rfl

@[simp] theorem State.setMem_mem (s : State) (v : Memory) : (s.setMem v).mem = v := rfl
@[simp] theorem State.setMem_acc (s : State) (v : Memory) : (s.setMem v).acc = s.acc := rfl
@[simp] theorem State.setMem_ov (s : State) (v : Memory) : (s.setMem v).ov = s.ov := rfl
@[simp] theorem State.setMem_ic (s : State) (v : Memory) : (s.setMem v).ic = s.ic := rfl
@[simp] theorem State.setMem_run (s : State) (v : Memory) : (s.setMem v).run = s.run := rfl
@[simp] theorem State.setMem_fault (s : State) (v : Memory) : (s.setMem v).fault = s.fault := rfl

@[simp] theorem State.advance_ic (s : State) : s.advance.ic = s.ic + 1#12 := rfl
@[simp] theorem State.memWrite_mem (s : State) (c : CellIx) (w : Word36) :
    (s.memWrite c w).mem = s.mem.write c.toNat w := rfl
@[simp] theorem State.raise_fault (s : State) (k : FaultKind) (op : OpCode) (w : Half18) :
    (s.raise k op w).fault = { kind := k, op := op, atSlot := s.executingSlot, word := w } := rfl
@[simp] theorem State.raise_run (s : State) (k : FaultKind) (op : OpCode) (w : Half18) :
    (s.raise k op w).run = .faulted := rfl
@[simp] theorem State.advance_mem (s : State) : s.advance.mem = s.mem := rfl
@[simp] theorem State.advance_acc (s : State) : s.advance.acc = s.acc := rfl
@[simp] theorem State.advance_ov (s : State) : s.advance.ov = s.ov := rfl
@[simp] theorem State.advance_run (s : State) : s.advance.run = s.run := rfl
@[simp] theorem State.advance_fault (s : State) : s.advance.fault = s.fault := rfl
@[simp] theorem State.memWrite_acc (s : State) (c : CellIx) (w : Word36) :
    (s.memWrite c w).acc = s.acc := rfl
@[simp] theorem State.memWrite_ov (s : State) (c : CellIx) (w : Word36) :
    (s.memWrite c w).ov = s.ov := rfl
@[simp] theorem State.memWrite_ic (s : State) (c : CellIx) (w : Word36) :
    (s.memWrite c w).ic = s.ic := rfl
@[simp] theorem State.memWrite_run (s : State) (c : CellIx) (w : Word36) :
    (s.memWrite c w).run = s.run := rfl
@[simp] theorem State.memWrite_fault (s : State) (c : CellIx) (w : Word36) :
    (s.memWrite c w).fault = s.fault := rfl
@[simp] theorem State.raise_mem (s : State) (k : FaultKind) (op : OpCode) (w : Half18) :
    (s.raise k op w).mem = s.mem := rfl
@[simp] theorem State.raise_acc (s : State) (k : FaultKind) (op : OpCode) (w : Half18) :
    (s.raise k op w).acc = s.acc := rfl
@[simp] theorem State.raise_ov (s : State) (k : FaultKind) (op : OpCode) (w : Half18) :
    (s.raise k op w).ov = s.ov := rfl
@[simp] theorem State.raise_ic (s : State) (k : FaultKind) (op : OpCode) (w : Half18) :
    (s.raise k op w).ic = s.ic := rfl

/-- While the instruction executes, the slot it was fetched from is the IC before the advance. -/
@[simp] theorem State.advance_executingSlot (s : State) : s.advance.executingSlot = s.ic := by
  simp [State.executingSlot]

/-- The fault action and the counter are all that `advance` and `raise` change, so a fetch sees what it saw. -/
@[simp] theorem State.advance_fetchHalf (s : State) (n : Addr12) : s.advance.fetchHalf n = s.fetchHalf n := rfl

/-- While the instruction executes, the slot still holds the half-word that was fetched. -/
@[simp] theorem State.advance_executingWord (s : State) : s.advance.executingWord = s.fetchHalf s.ic := by
  simp [State.executingWord]

end Sys2Proof.Machine
end

