-- ==== Sys2Proof/Laws/Access.lean ====
section
/-! SUPPORT. Reading cells and half-words after a write (R43, R44). -/

namespace Sys2Proof.Machine

theorem cell_lt (c : CellIx) : c.toNat < memCells := c.isLt

theorem State.memRead_memWrite_same {s : State} (hs : s.mem.wf = true) (c : CellIx) (w : Word36) :
    (s.memWrite c w).memRead c = w := Memory.read_write_same hs _ _

theorem State.memRead_memWrite_other {c d : CellIx} (h : d ≠ c) (s : State) (w : Word36) :
    (s.memWrite c w).memRead d = s.memRead d :=
  Memory.read_write_other (fun e => h (BitVec.eq_of_toNat_eq e)) _ _

theorem State.wf_memWrite {s : State} (hs : s.mem.wf = true) (c : CellIx) (w : Word36) :
    (s.memWrite c w).mem.wf = true := Memory.wf_write hs (cell_lt c) w

theorem cellOf_toNat (n : Addr12) : (cellOf n).toNat = n.toNat / 2 := by
  have := n.isLt
  simp only [cellOf, BitVec.extractLsb'_toNat, Nat.shiftRight_eq_div_pow]
  omega

theorem isHigh_eq (n : Addr12) : isHigh n = decide (n.toNat % 2 = 1) := by
  simp [isHigh, BitVec.getLsbD, Nat.testBit_zero]

/-- A half-word address is its cell and its half. -/
theorem addr_eq_of_cell_half {n k : Addr12} (hc : cellOf n = cellOf k) (hh : isHigh n = isHigh k) : n = k := by
  have h1 := cellOf_toNat n
  have h2 := cellOf_toNat k
  rw [hc] at h1
  simp only [isHigh_eq, decide_eq_decide] at hh
  apply BitVec.eq_of_toNat_eq
  omega

/-- The half-word stored reads as its new field. -/
theorem State.fetchHalf_storeHalf_same {s : State} (hs : s.mem.wf = true) (n : Addr12) (f : Half18) :
    (s.storeHalf n f).fetchHalf n = f := by
  simp [State.fetchHalf, State.storeHalf, State.memRead_memWrite_same hs]

/-- Every other half-word reads as before. -/
theorem State.fetchHalf_storeHalf_other {s : State} (hs : s.mem.wf = true) {n k : Addr12} (h : k ≠ n) (f : Half18) :
    (s.storeHalf n f).fetchHalf k = s.fetchHalf k := by
  unfold State.fetchHalf State.storeHalf
  by_cases hc : cellOf k = cellOf n
  · rw [hc, State.memRead_memWrite_same hs,
      halfOf_mergeHalf_other _ fun e => h (addr_eq_of_cell_half hc e)]
  · rw [State.memRead_memWrite_other hc]

/-- A half-word operand write is a store of the encoded field at the address. -/
theorem State.writeOperand_half (s : State) (a : Addr12) (v : Int) :
    s.writeOperand (resolve false a) v = s.storeHalf a (halfField v) := by
  simp [resolve, State.writeOperand, State.storeHalf]

/-- A full-word operand write replaces the cell. -/
theorem State.writeOperand_full (s : State) (a : Addr12) (v : Int) :
    s.writeOperand (resolve true a) v = s.memWrite (cellOf a) (encodeFull v) := rfl

/-- An operand write changes memory alone. -/
theorem State.writeOperand_frame (s : State) (loc : Location) (v : Int) :
    (s.writeOperand loc v).acc = s.acc ∧ (s.writeOperand loc v).ov = s.ov ∧ (s.writeOperand loc v).ic = s.ic ∧
      (s.writeOperand loc v).run = s.run ∧ (s.writeOperand loc v).fault = s.fault := by
  cases loc <;> exact ⟨rfl, rfl, rfl, rfl, rfl⟩

theorem State.wf_writeOperand {s : State} (hs : s.mem.wf = true) (loc : Location) (v : Int) :
    (s.writeOperand loc v).mem.wf = true := by
  cases loc <;> exact State.wf_memWrite hs _ _

/-- An operand's magnitude fits 35 bits (R42). -/
theorem State.natAbs_readOperand_lt (s : State) (loc : Location) : (s.readOperand loc).natAbs < 2 ^ 35 := by
  cases loc with
  | full c => exact natAbs_decodeFull_lt _
  | half c h => exact Nat.lt_trans (natAbs_decodeHalf_lt _ _) (by decide)

/-- Operands are read from memory alone. -/
theorem State.readOperand_congr {s t : State} (h : s.mem = t.mem) (loc : Location) :
    s.readOperand loc = t.readOperand loc := by
  cases loc <;> simp [State.readOperand, State.memRead, h]

theorem State.fetchHalf_congr {s t : State} (h : s.mem = t.mem) (n : Addr12) : s.fetchHalf n = t.fetchHalf n := by
  simp [State.fetchHalf, State.memRead, h]

end Sys2Proof.Machine
end

