-- ==== Sys2Proof/Laws/Alu.lean ====
section
/-! SUPPORT. What the accumulator primitives leave. -/

namespace Sys2Proof.Machine

/-- The signed value's magnitude is the accumulator's magnitude. -/
theorem Accumulator.natAbs_value (a : Accumulator) : a.value.natAbs = a.mag.toNat := SM_natAbs _ _

/-- The accumulator's value is within ±(2^35 - 1). -/
theorem Accumulator.natAbs_value_lt (a : Accumulator) : a.value.natAbs < 2 ^ 35 := by
  rw [Accumulator.natAbs_value]; exact a.mag.isLt

/-- `add(v)` changes ACC and OV alone (R112). -/
theorem State.addAcc_eq (s : State) (v : Int) : s.addAcc v =
    { s with
      acc := Accumulator.ofInt (s.acc.value + v)
      ov := overflow s.acc.mag (Accumulator.ofInt (s.acc.value + v)).mag } := rfl

theorem pair_ne_iff : ∀ p q p' q' : Bool,
    decide ((p, q) ≠ (p', q')) = !(decide (p = p') && decide (q = q')) := by decide

/-- OV is set exactly when bit 18 or bit 19 changed (R112). -/
theorem overflow_eq (a b : Mag35) : overflow a b =
    !(decide (a.getLsbD 18 = b.getLsbD 18) && decide (a.getLsbD 19 = b.getLsbD 19)) := pair_ne_iff _ _ _ _

/-- A left shift by 35 or more leaves no bit (R115). -/
theorem shl_out {n : Nat} (m : Nat) (h : 35 ≤ n) : m * 2 ^ n % 2 ^ 35 = 0 := by
  obtain ⟨d, rfl⟩ := Nat.exists_eq_add_of_le h
  rw [Nat.pow_add, ← Nat.mul_assoc, Nat.mul_right_comm]
  exact Nat.mul_mod_left _ _

/-- A right shift by 35 or more leaves no bit (R115). -/
theorem shr_out {n : Nat} (m : Mag35) (h : 35 ≤ n) : m.toNat / 2 ^ n = 0 :=
  Nat.div_eq_of_lt (Nat.lt_of_lt_of_le m.isLt (Nat.pow_le_pow_right (by decide) h))

/-- R115's `(ACC.mag * 2^n) mod 2^35`, for every count. -/
theorem State.shl_mag (s : State) (n : Nat) : (s.shl n).acc.mag.toNat = s.acc.mag.toNat * 2 ^ n % 2 ^ 35 := by
  show (BitVec.ofNat 35 (s.acc.mag.toNat * 2 ^ min n 35)).toNat = _
  rw [BitVec.toNat_ofNat]
  rcases Nat.le_total n 35 with h | h
  · rw [Nat.min_eq_left h]
  · rw [Nat.min_eq_right h, shl_out _ h, Nat.mul_mod_left]

/-- R115's `ACC.mag div 2^n`, for every count. -/
theorem State.shr_mag (s : State) (n : Nat) : (s.shr n).acc.mag.toNat = s.acc.mag.toNat / 2 ^ n := by
  show (BitVec.ofNat 35 (s.acc.mag.toNat / 2 ^ min n 35)).toNat = _
  have hd : s.acc.mag.toNat / 2 ^ min n 35 < 2 ^ 35 := Nat.lt_of_le_of_lt (Nat.div_le_self _ _) s.acc.mag.isLt
  rw [BitVec.toNat_ofNat, Nat.mod_eq_of_lt hd]
  rcases Nat.le_total n 35 with h | h
  · rw [Nat.min_eq_left h]
  · rw [Nat.min_eq_right h, shr_out _ h, shr_out _ (Nat.le_refl 35)]

end Sys2Proof.Machine
end

