-- ==== Sys2Proof/Laws/Decode.lean ====
section
/-! SUPPORT. The fields of a packed half-word, and what OPCODE_MAP's inverse answers. -/

namespace Sys2Proof

@[simp] theorem Instr.make_op (op : Op) (s : Bool) (a : Addr12) : (Instr.make op s a).op = op := by cases op <;> rfl
@[simp] theorem Instr.make_sign (op : Op) (s : Bool) (a : Addr12) : (Instr.make op s a).sign = s := by cases op <;> rfl
@[simp] theorem Instr.make_addr (op : Op) (s : Bool) (a : Addr12) : (Instr.make op s a).addr = a := by cases op <;> rfl

/-- An instruction is its operation, sign and address. -/
theorem Instr.make_parts (i : Instr) : Instr.make i.op i.sign i.addr = i := by cases i <;> rfl

/-- A bit of a packed half-word. -/
theorem getLsbD_packFields (s : Bool) (c : OpCode) (n i : Nat) :
    (packFields s c n).getLsbD i =
      if i < 12 then (BitVec.ofNat 12 n).getLsbD i
      else if i - 12 < 5 then c.getLsbD (i - 12) else (BitVec.ofBool s).getLsbD (i - 12 - 5) := by
  have h1 := BitVec.getLsbD_append (x := (BitVec.ofBool s ++ c)) (y := BitVec.ofNat 12 n) (i := i)
  have h2 := BitVec.getLsbD_append (x := BitVec.ofBool s) (y := c) (i := i - 12)
  rw [h2] at h1
  exact h1

theorem packFields_addr (s : Bool) (c : OpCode) (n : Nat) : addrField (packFields s c n) = BitVec.ofNat 12 n := by
  unfold addrField
  ext i hi
  simp [getLsbD_packFields, hi]

theorem packFields_op (s : Bool) (c : OpCode) (n : Nat) : opField (packFields s c n) = c := by
  unfold opField
  ext i hi
  simp [getLsbD_packFields, hi]

theorem packFields_sign (s : Bool) (c : OpCode) (n : Nat) : signField (packFields s c n) = s := by
  unfold signField
  rw [getLsbD_packFields]
  simp

/-- A half-word is its three fields. -/
theorem packFields_fields (h : Half18) : packFields (signField h) (opField h) (addrField h).toNat = h := by
  apply BitVec.eq_of_getLsbD_eq
  intro i hi
  rw [getLsbD_packFields, BitVec.ofNat_toNat, BitVec.setWidth_eq]
  unfold signField opField addrField
  by_cases h1 : i < 12
  · simp [h1]
  · by_cases h2 : i - 12 < 5
    · have e : 12 + (i - 12) = i := by omega
      simp [h1, h2, e]
    · have e : i = 17 := by omega
      subst e
      simp

/-- Every OP value is in the list of all. -/
theorem OpCode.mem_all (c : OpCode) : c ∈ OpCode.all := by
  simp only [OpCode.all, List.mem_map, List.mem_range]
  exact ⟨c.toNat, c.isLt, by simp⟩

/-- The inverse answers an OP value that the map gives that operation. -/
theorem OpcodeMap.map_of_codeOf {m : OpcodeMap} {op : Op} {c : OpCode} (h : m.codeOf op = some c) :
    m c = some op := by
  have := List.find?_some h
  simpa using this

/-- Where the map gives an operation some OP value, the inverse answers. -/
theorem OpcodeMap.codeOf_isSome {m : OpcodeMap} {op : Op} {c : OpCode} (h : m c = some op) :
    ∃ d, m.codeOf op = some d ∧ m d = some op := by
  cases e : m.codeOf op with
  | some d => exact ⟨d, rfl, OpcodeMap.map_of_codeOf e⟩
  | none =>
    have := List.find?_eq_none.1 e c (OpCode.mem_all c)
    simp [h] at this

/-- What `OpcodeMap.injective` decides. -/
theorem OpcodeMap.eq_of_injective {m : OpcodeMap} (hm : m.injective = true) {c d : OpCode} {op : Op}
    (hc : m c = some op) (hd : m d = some op) : c = d := by
  simp only [OpcodeMap.injective, List.all_eq_true, Bool.or_eq_true, decide_eq_true_eq] at hm
  rcases hm c (OpCode.mem_all c) d (OpCode.mem_all d) with (h | h) | h
  · rw [hc] at h; cases h
  · exact absurd (hc.trans hd.symm) h
  · exact h

theorem defaultOpcodeMap_injective : defaultOpcodeMap.injective = true := by decide

/-- The default map has an operation for every OP value (R69, N2). -/
theorem defaultOpcodeMap_total (c : OpCode) : ∃ op, defaultOpcodeMap c = some op := by
  have h : c.toNat < Op.all.length := c.isLt
  exact ⟨Op.all[c.toNat], List.getElem?_eq_getElem h⟩

/-- What decode answers, by the map's answer on OP. -/
theorem decode_ok_iff {m : OpcodeMap} {h : Half18} {i : Instr} :
    decode m h = .ok i ↔ m (opField h) = some i.op ∧ i.sign = signField h ∧ i.addr = addrField h := by
  unfold decode
  constructor
  · intro e
    split at e
    · next op hop => cases e; simp [hop]
    · cases e
  · rintro ⟨h1, h2, h3⟩
    rw [h1]
    simp only
    rw [← h2, ← h3, Instr.make_parts]

end Sys2Proof
end

