-- ==== Sys2Proof/Laws/Exec.lean ====
section
/-! SUPPORT. Everything an instruction and a step can do, said once. -/

namespace Sys2Proof.Machine

/-- Every instruction's next state: the seven of their own rules, the 25 of the fault action. -/
theorem exec_eq (i : Instr) (s : State) :
    exec i s = .next (match i with
      | .stop _ a => (s.setIc a).setRun .halted
      | .tr _ a => s.setIc a
      | .rAdd sg a => s.clearAcc.insert (s.readOperand (resolve sg a))
      | .add sg a => s.addAcc (s.readOperand (resolve sg a))
      | .store sg a => s.writeOperand (resolve sg a) s.acc.value
      | .aLeft _ a => s.shl a.toNat
      | .aRight _ a => s.shr a.toNat
      | _ => s.raiseUnimplemented) := by
  cases i <;> rfl

/-- An operation without a handler takes the fault action (R170). -/
theorem exec_unimplemented {i : Instr} (h : i.op.implemented = false) (s : State) :
    exec i s = .next s.raiseUnimplemented := by
  cases i <;> first | rfl | cases h

/-- An implemented instruction is one of seven. -/
theorem implemented_cases {i : Instr} (h : i.op.implemented = true) :
    (∃ sg a, i = .stop sg a) ∨ (∃ sg a, i = .tr sg a) ∨ (∃ sg a, i = .add sg a) ∨ (∃ sg a, i = .rAdd sg a) ∨
      (∃ sg a, i = .store sg a) ∨ (∃ sg a, i = .aLeft sg a) ∨ (∃ sg a, i = .aRight sg a) := by
  cases i <;> simp [Instr.op, Instr.parts, Op.implemented] at h ⊢

/-- A step in Halted or Faulted changes nothing. -/
theorem stepWith_of_not_running {m : OpcodeMap} {s : State} (h : s.run ≠ .running) : stepWith m s = .next s := by
  unfold stepWith
  split
  · next e => exact absurd e h
  · rfl
  · rfl

/-- A step whose half-word decodes runs the instruction after the advance. -/
theorem stepWith_of_ok {m : OpcodeMap} {s : State} {i : Instr} (hr : s.run = .running)
    (hd : decode m (s.fetchHalf s.ic) = .ok i) : stepWith m s = exec i s.advance := by
  unfold stepWith
  simp only [hr, hd]

/-- A step whose half-word does not decode takes the fault action. -/
theorem stepWith_of_error {m : OpcodeMap} {s : State} {e : InvalidOpcode} (hr : s.run = .running)
    (hd : decode m (s.fetchHalf s.ic) = .error e) :
    stepWith m s = .next (s.advance.raise .invalidOpcode e.op e.word) := by
  unfold stepWith
  simp only [hr, hd]

/-- The three things a step can be. -/
theorem stepWith_cases (m : OpcodeMap) (s : State) :
    (s.run ≠ .running ∧ stepWith m s = .next s) ∨
    (∃ e, s.run = .running ∧ decode m (s.fetchHalf s.ic) = .error e ∧
      stepWith m s = .next (s.advance.raise .invalidOpcode e.op e.word)) ∨
    (∃ i, s.run = .running ∧ decode m (s.fetchHalf s.ic) = .ok i ∧ stepWith m s = exec i s.advance) := by
  by_cases hr : s.run = .running
  · cases hd : decode m (s.fetchHalf s.ic) with
    | error e => exact .inr (.inl ⟨e, hr, rfl, stepWith_of_error hr hd⟩)
    | ok i => exact .inr (.inr ⟨i, hr, rfl, stepWith_of_ok hr hd⟩)
  · exact .inl ⟨hr, stepWith_of_not_running hr⟩

/-- What the decoder's refusal carries. -/
theorem decode_error {m : OpcodeMap} {h : Half18} {e : InvalidOpcode} (he : decode m h = .error e) :
    m (opField h) = none ∧ e = { op := opField h, word := h } := by
  unfold decode at he
  split at he
  · cases he
  · next hn => cases he; exact ⟨hn, rfl⟩

/-- Two answers that are one next state are of one state. -/
theorem next_inj {s t : State} (h : (Host.Outcome.next s : Host.Outcome State Fault Refusal) = .next t) : s = t := by
  injection h

/-- The fault action after the advance, written out (R201). -/
theorem raise_advance (s : State) (k : FaultKind) (op : OpCode) (w : Half18) : s.advance.raise k op w =
    { s with
      ic := s.ic + 1#12, run := .faulted, fault := { kind := k, op := op, atSlot := s.ic, word := w } } := by
  simp [State.raise, State.setRun, State.setFault, State.advance, State.setIc, State.executingSlot]

/-- R170's handler after the advance, written out. -/
theorem raiseUnimplemented_advance (s : State) : s.advance.raiseUnimplemented =
    { s with
      ic := s.ic + 1#12
      run := .faulted
      fault := { kind := .unimplementedOperation, op := opField (s.fetchHalf s.ic), atSlot := s.ic,
                 word := s.fetchHalf s.ic } } := by
  unfold State.raiseUnimplemented
  rw [State.advance_executingWord, raise_advance]

end Sys2Proof.Machine
end

