-- ==== Sys2Proof/Laws/HostInterface.lean ====
section
/-! SUPPORT. What a run under a budget, and the host's run of n steps, do with their next step, said once. -/

namespace Sys2Proof.Machine

/-- No step is issued to a stopped machine, whatever the budget. -/
theorem runBudget_of_not_running {m : OpcodeMap} {s : State} (h : s.run ≠ .running) (n : Nat) :
    runBudget m n s = .next s := by
  cases n with
  | zero => rfl
  | succ n => unfold runBudget; split <;> first | rfl | exact absurd ‹_› h

/-- A running machine is issued one step, and then the rest of the budget. -/
theorem runBudget_of_running {m : OpcodeMap} {s t : State} (hr : s.run = .running)
    (ht : stepWith m s = .next t) (n : Nat) : runBudget m (n + 1) s = runBudget m n t := by
  simp only [runBudget, hr, ht]

/-- The host's run of n + 1 steps, after a step that answers a next state. -/
theorem core_run_of_next {s t : Sys2Proof.core.State} (ht : Sys2Proof.core.step s = .next t) (n : Nat) :
    Host.Core.run Sys2Proof.core (n + 1) s = Host.Core.run Sys2Proof.core n t := by
  simp only [Host.Core.run, ht]

end Sys2Proof.Machine
end

