-- ==== Sys2Proof/Laws/PerInstr.lean ====
section
/-! SUPPORT. Per-instruction facts about the instruction as syntax. -/

namespace Sys2Proof.Laws.Shape

/-- The instruction is the one built from its operation and its two fields, and the default OPCODE_MAP
gives its operation an OP value. -/
def Statement (i : Instr) : Prop :=
  Instr.make i.op i.sign i.addr = i ∧ i.wellFormed defaultOpcodeMap = true

theorem stop (s : Bool) (a : Addr12) : Statement (.stop s a) := ⟨rfl, rfl⟩
theorem tr (s : Bool) (a : Addr12) : Statement (.tr s a) := ⟨rfl, rfl⟩
theorem trOv (s : Bool) (a : Addr12) : Statement (.trOv s a) := ⟨rfl, rfl⟩
theorem trPlus (s : Bool) (a : Addr12) : Statement (.trPlus s a) := ⟨rfl, rfl⟩
theorem trZero (s : Bool) (a : Addr12) : Statement (.trZero s a) := ⟨rfl, rfl⟩
theorem sub (s : Bool) (a : Addr12) : Statement (.sub s a) := ⟨rfl, rfl⟩
theorem rSub (s : Bool) (a : Addr12) : Statement (.rSub s a) := ⟨rfl, rfl⟩
theorem subAb (s : Bool) (a : Addr12) : Statement (.subAb s a) := ⟨rfl, rfl⟩
theorem noOp (s : Bool) (a : Addr12) : Statement (.noOp s a) := ⟨rfl, rfl⟩
theorem add (s : Bool) (a : Addr12) : Statement (.add s a) := ⟨rfl, rfl⟩
theorem rAdd (s : Bool) (a : Addr12) : Statement (.rAdd s a) := ⟨rfl, rfl⟩
theorem addAb (s : Bool) (a : Addr12) : Statement (.addAb s a) := ⟨rfl, rfl⟩
theorem store (s : Bool) (a : Addr12) : Statement (.store s a) := ⟨rfl, rfl⟩
theorem storeA (s : Bool) (a : Addr12) : Statement (.storeA s a) := ⟨rfl, rfl⟩
theorem storeMq (s : Bool) (a : Addr12) : Statement (.storeMq s a) := ⟨rfl, rfl⟩
theorem loadMq (s : Bool) (a : Addr12) : Statement (.loadMq s a) := ⟨rfl, rfl⟩
theorem mpy (s : Bool) (a : Addr12) : Statement (.mpy s a) := ⟨rfl, rfl⟩
theorem mpyR (s : Bool) (a : Addr12) : Statement (.mpyR s a) := ⟨rfl, rfl⟩
theorem div (s : Bool) (a : Addr12) : Statement (.div s a) := ⟨rfl, rfl⟩
theorem round (s : Bool) (a : Addr12) : Statement (.round s a) := ⟨rfl, rfl⟩
theorem lLeft (s : Bool) (a : Addr12) : Statement (.lLeft s a) := ⟨rfl, rfl⟩
theorem lRight (s : Bool) (a : Addr12) : Statement (.lRight s a) := ⟨rfl, rfl⟩
theorem aLeft (s : Bool) (a : Addr12) : Statement (.aLeft s a) := ⟨rfl, rfl⟩
theorem aRight (s : Bool) (a : Addr12) : Statement (.aRight s a) := ⟨rfl, rfl⟩
theorem read (s : Bool) (a : Addr12) : Statement (.read s a) := ⟨rfl, rfl⟩
theorem readB (s : Bool) (a : Addr12) : Statement (.readB s a) := ⟨rfl, rfl⟩
theorem write (s : Bool) (a : Addr12) : Statement (.write s a) := ⟨rfl, rfl⟩
theorem writeEf (s : Bool) (a : Addr12) : Statement (.writeEf s a) := ⟨rfl, rfl⟩
theorem rewind (s : Bool) (a : Addr12) : Statement (.rewind s a) := ⟨rfl, rfl⟩
theorem setDr (s : Bool) (a : Addr12) : Statement (.setDr s a) := ⟨rfl, rfl⟩
theorem sense (s : Bool) (a : Addr12) : Statement (.sense s a) := ⟨rfl, rfl⟩
theorem copy (s : Bool) (a : Addr12) : Statement (.copy s a) := ⟨rfl, rfl⟩

end Sys2Proof.Laws.Shape
end

