-- ==== Sys2Proof/Tests/Slice0.lean ====
section
/-! SUPPORT. Tests of the model against words and vectors of spec/ (30_encoding.md, 95_test_vectors.md),
and, for every statement with hypotheses, a witness that meets them. -/

namespace Sys2Proof.Tests

open Sys2Proof Sys2Proof.Machine

/-- The reset machine with a memory and a counter. -/
def machineAt (mem : Memory) (ic : Addr12) : State := { State.reset with mem := mem, ic := ic }

/-- The same with an accumulator and OV. -/
def loaded (mem : Memory) (ic : Addr12) (sign : Bool) (mag : Nat) (ov : Bool) : State :=
  { machineAt mem ic with acc := { sign := sign, mag := BitVec.ofNat 35 mag }, ov := ov }

/-- The state after one step, where there is one. -/
def after (s : State) : Option State :=
  match step s with
  | .next t => some t
  | .fault _ => none
  | .refused _ => none

/-- One half-word instruction at slot 0. -/
def slot0 (h : Half18) : State := machineAt [(0, 0#18 ++ h)] 0

/-- The default map without OP 31 (V-SRC-6). -/
def partialMap : OpcodeMap := fun c => if c = 31#5 then none else defaultOpcodeMap c

/-- A map with two OP values for ADD. -/
def doubledMap : OpcodeMap := fun c => if c = 31#5 then some .add else defaultOpcodeMap c

/-- A map without TR. -/
def noTrMap : OpcodeMap := fun c => if c = 1#5 then none else defaultOpcodeMap c

/-! ### Well-formedness: each check refuses an ill-formed term -/

theorem test_injective_refuses : doubledMap.injective = false := by decide
theorem test_mapsImplemented_refuses : noTrMap.mapsImplemented = false := by decide
theorem test_map_wellFormed_refuses : noTrMap.wellFormed = false ∧ doubledMap.wellFormed = false := by decide
theorem test_map_wellFormed_accepts : partialMap.wellFormed = true := by decide
theorem test_instr_wellFormed_refuses : (Instr.copy true 4095#12).wellFormed partialMap = false := by decide
theorem test_memory_wf_refuses : Memory.wf [(1, 5#36), (0, 5#36)] = false ∧ Memory.wf [(2048, 5#36)] = false ∧
    Memory.wf [(3, 0#36)] = false := by decide

/-! ### Decoding: one word per constructor, written out as S, OP, ADDR from R67 and R68 -/

theorem test_decode_0_to_7 :
    decode defaultOpcodeMap (0b0#1 ++ 0b00000#5 ++ 0b000000000101#12) = .ok (.stop false 5) ∧
    decode defaultOpcodeMap (0b0#1 ++ 0b00001#5 ++ 0b000001100100#12) = .ok (.tr false 100) ∧
    decode defaultOpcodeMap (0b1#1 ++ 0b00010#5 ++ 0b000000000000#12) = .ok (.trOv true 0) ∧
    decode defaultOpcodeMap (0b0#1 ++ 0b00011#5 ++ 0b100000000000#12) = .ok (.trPlus false 2048) ∧
    decode defaultOpcodeMap (0b0#1 ++ 0b00100#5 ++ 0b000000000001#12) = .ok (.trZero false 1) ∧
    decode defaultOpcodeMap (0b0#1 ++ 0b00101#5 ++ 0b000000000010#12) = .ok (.sub false 2) ∧
    decode defaultOpcodeMap (0b1#1 ++ 0b00110#5 ++ 0b111111111111#12) = .ok (.rSub true 4095) ∧
    decode defaultOpcodeMap (0b0#1 ++ 0b00111#5 ++ 0b000000000111#12) = .ok (.subAb false 7) := by decide

theorem test_decode_8_to_15 :
    decode defaultOpcodeMap (0b0#1 ++ 0b01000#5 ++ 0b000000000000#12) = .ok (.noOp false 0) ∧
    decode defaultOpcodeMap (0b1#1 ++ 0b01001#5 ++ 0b000000000110#12) = .ok (.add true 6) ∧
    decode defaultOpcodeMap (0b1#1 ++ 0b01010#5 ++ 0b000000000100#12) = .ok (.rAdd true 4) ∧
    decode defaultOpcodeMap (0b0#1 ++ 0b01011#5 ++ 0b000000000011#12) = .ok (.addAb false 3) ∧
    decode defaultOpcodeMap (0b0#1 ++ 0b01100#5 ++ 0b000000001010#12) = .ok (.store false 10) ∧
    decode defaultOpcodeMap (0b1#1 ++ 0b01101#5 ++ 0b000000001010#12) = .ok (.storeA true 10) ∧
    decode defaultOpcodeMap (0b0#1 ++ 0b01110#5 ++ 0b010000000000#12) = .ok (.storeMq false 1024) ∧
    decode defaultOpcodeMap (0b0#1 ++ 0b01111#5 ++ 0b000000000001#12) = .ok (.loadMq false 1) := by decide

theorem test_decode_16_to_23 :
    decode defaultOpcodeMap (0b0#1 ++ 0b10000#5 ++ 0b000000000001#12) = .ok (.mpy false 1) ∧
    decode defaultOpcodeMap (0b1#1 ++ 0b10001#5 ++ 0b000000000001#12) = .ok (.mpyR true 1) ∧
    decode defaultOpcodeMap (0b0#1 ++ 0b10010#5 ++ 0b000000000010#12) = .ok (.div false 2) ∧
    decode defaultOpcodeMap (0b0#1 ++ 0b10011#5 ++ 0b000000000000#12) = .ok (.round false 0) ∧
    decode defaultOpcodeMap (0b0#1 ++ 0b10100#5 ++ 0b000000100011#12) = .ok (.lLeft false 35) ∧
    decode defaultOpcodeMap (0b0#1 ++ 0b10101#5 ++ 0b000000100011#12) = .ok (.lRight false 35) ∧
    decode defaultOpcodeMap (0b0#1 ++ 0b10110#5 ++ 0b000000000011#12) = .ok (.aLeft false 3) ∧
    decode defaultOpcodeMap (0b1#1 ++ 0b10111#5 ++ 0b000000000010#12) = .ok (.aRight true 2) := by decide

theorem test_decode_24_to_31 :
    decode defaultOpcodeMap (0b0#1 ++ 0b11000#5 ++ 0b000000000000#12) = .ok (.read false 0) ∧
    decode defaultOpcodeMap (0b0#1 ++ 0b11001#5 ++ 0b000000000001#12) = .ok (.readB false 1) ∧
    decode defaultOpcodeMap (0b1#1 ++ 0b11010#5 ++ 0b000000000000#12) = .ok (.write true 0) ∧
    decode defaultOpcodeMap (0b0#1 ++ 0b11011#5 ++ 0b000000000010#12) = .ok (.writeEf false 2) ∧
    decode defaultOpcodeMap (0b0#1 ++ 0b11100#5 ++ 0b000000000011#12) = .ok (.rewind false 3) ∧
    decode defaultOpcodeMap (0b0#1 ++ 0b11101#5 ++ 0b000000000100#12) = .ok (.setDr false 4) ∧
    decode defaultOpcodeMap (0b0#1 ++ 0b11110#5 ++ 0b000000000101#12) = .ok (.sense false 5) ∧
    decode defaultOpcodeMap (0b1#1 ++ 0b11111#5 ++ 0b111111111111#12) = .ok (.copy true 4095) := by decide

/-- A partial map refuses the blank by name (V-SRC-6). -/
theorem test_decode_invalid :
    decode partialMap 0x3FFFF#18 = .error { op := 31, word := 0x3FFFF } := by decide

/-- R70's inverse on R76's example `R_ADD -4`, and a masked address. -/
theorem test_encode : encode defaultOpcodeMap (.rAdd true 4) = some 0x2A004#18 ∧
    packFields true 10#5 (4096 + 4) = 0x2A004#18 := by decide

/-- The opcode table's `match` values, each with its row's operation. -/
theorem test_table_words :
    ((List.range 32).map fun c => (decodeTableWord 24 (c * 4096)).map Instr.op) = Op.all.map some := by decide

theorem test_table_word_too_wide : decodeTableWord 24 0x40000 = none := by decide

/-- V-SRC-7. -/
theorem test_pack : packInstructions defaultOpcodeMap [.rAdd false 4, .add false 6, .store false 10] =
    some [0x24018A004#36, 0xFFFFCC00A#36] := by decide

/-! ### The word codec: V-SRC-1 and section 2.1 -/

theorem test_codec_full : [0, 5, -5, 131071, -131071, 34359738367, -34359738367].map encodeFull =
      [0x000000000#36, 0x000000005, 0x800000005, 0x00001FFFF, 0x80001FFFF, 0x7FFFFFFFF, 0xFFFFFFFFF] ∧
    encodeFull 34359738368 = 0#36 ∧ decodeFull 0xFFFFFFFFF#36 = -34359738367 := by decide

theorem test_codec_half : [5, -5, 131071, -131071].map (encodeHalf · true) =
      [0x000140000#36, 0x800140000, 0x7FFFC0000, 0xFFFFC0000] ∧ encodeHalf (-131071) false = 0x00003FFFF#36 ∧
    encodeHalf 131072 false = 0#36 ∧ encodeHalf (-131072) true = 0x800000000#36 ∧
    decodeHalf 0xFFFFFFFFF#36 true = -131071 ∧ decodeHalf 0x000020000#36 false = 0 ∧
    decodeHalf 0x7FFFC0005#36 false = 5 ∧ decodeHalf 0x7FFFC0005#36 true = 131071 := by decide

/-! ### The adder: section 2.3, row by row -/

/-- (sign, magnitude, OV) after an add. -/
def sumOf (sign : Bool) (mag : Nat) (ov : Bool) (v : Int) : Bool × Nat × Bool :=
  let t := (loaded [] 0 sign mag ov).addAcc v
  (t.acc.sign, t.acc.mag.toNat, t.ov)

theorem test_add_vectors :
    sumOf false 262143 false 1 = (false, 262144, true) ∧ sumOf false 5 false 7 = (false, 12, false) ∧
    sumOf false 262144 false 262144 = (false, 524288, true) ∧
    sumOf false 786432 false 1048576 = (false, 1835008, false) ∧
    sumOf false (2 ^ 35 - 1) false 1 = (false, 0, true) ∧
    sumOf false (2 ^ 35 - 1) false 1048576 = (false, 1048575, false) ∧
    sumOf false (2 ^ 35 - 1) false (2 ^ 35 - 1) = (false, 2 ^ 35 - 2, false) := by decide

theorem test_add_vectors_signs :
    sumOf true (2 ^ 35 - 1) false (-1) = (true, 0, true) ∧ sumOf false 262144 false (-1) = (false, 262143, true) ∧
    sumOf false 0 true 0 = (false, 0, false) ∧ sumOf false 5 true (-5) = (false, 0, false) ∧
    sumOf true 0 false 0 = (false, 0, false) ∧ sumOf false 100 false (-300) = (true, 200, false) ∧
    sumOf true 524288 false 524288 = (false, 0, true) ∧ sumOf true 7 true 3 = (true, 4, false) := by decide

/-! ### One step per instruction: sections 2.4 to 2.9 -/

/-- R140's example, in the high half, OV kept (2.4 row 2). -/
theorem test_rAdd_half : (after (loaded [(0, 0x0A005#36), (2, 0x800140000#36)] 0 false 9 true)).map
    (fun t => (t.acc, t.ov, t.ic)) = some ({ sign := true, mag := 5 }, true, 1) := by decide

/-- A minus-zero full word loads as +0, at an odd address too (2.4 rows 3, 4). -/
theorem test_rAdd_full : (after (loaded [(0, 0x2A005#36), (2, 0x800000000#36)] 0 false 9 false)).map (·.acc) =
    some { sign := false, mag := 0 } := by decide

/-- R141's example (V-SRC-2). -/
theorem test_add_crosses : (after (loaded [(0, 0x29006#36), (3, 1#36)] 0 false 262143 false)).map
    (fun t => (t.acc, t.ov)) = some ({ sign := false, mag := 262144 }, true) := by decide

/-- 2.5 row 2: ADD -0 reads its own cell as data. -/
theorem test_add_own_cell : (after (slot0 0x29000#18)).map (fun t => (t.acc.mag.toNat, t.ov)) =
    some (167936, false) := by decide

/-- R150's example: the high half is kept. -/
theorem test_store_low : (after (loaded [(0, 0x0C00A#36), (5, 0xFFFFC0000#36)] 0 false 7 false)).map
    (·.memRead 5) = some 0xFFFFC0007#36 := by decide

/-- 2.6 row 6: a high half with its sign; the low half is kept. -/
theorem test_store_high : (after (loaded [(0, 0x0C005#36), (2, 0x800000005#36)] 0 true 2 false)).map
    (·.memRead 2) = some 0x800080005#36 := by decide

/-- 2.7: a bit past bit 34 is lost, the sign and OV stay. -/
theorem test_aLeft : (after (loaded [(0, 0x16001#36)] 0 true (2 ^ 34 + 1) true)).map (fun t => (t.acc, t.ov)) =
    some ({ sign := true, mag := 2 }, true) := by decide

/-- 2.7: count 4095. -/
theorem test_aLeft_max : (after (loaded [(0, 0x16FFF#36)] 0 false (2 ^ 35 - 1) true)).map (·.acc) =
    some { sign := false, mag := 0 } := by decide

/-- 2.7: minus zero. -/
theorem test_aRight : (after (loaded [(0, 0x17001#36)] 0 true 1 true)).map (fun t => (t.acc, t.ov)) =
    some ({ sign := true, mag := 0 }, true) := by decide

/-- 2.7: count 34. -/
theorem test_aRight_34 : (after (loaded [(0, 0x17022#36)] 0 false (2 ^ 35 - 1) true)).map (·.acc) =
    some { sign := false, mag := 1 } := by decide

/-- 2.8: TR 100 in cell 3's high half. -/
theorem test_tr : (after (machineAt [(3, 0x01064#18 ++ 0#18)] 7)).map (fun t => (t.ic, t.run)) =
    some (100, .running) := by decide

/-- 2.8: STOP 0 at slot 3, then a step in Halted. -/
theorem test_stop : (after (machineAt [] 3)).map (fun t => (t.ic, t.run)) = some (0, .halted) ∧
    (after (machineAt [] 3)).bind after = after (machineAt [] 3) := by decide

/-- 2.8: the counter wraps after slot 4095. -/
theorem test_wrap : (after (machineAt [(2047, 0x16000#18 ++ 0#18)] 4095)).map (·.ic) = some 0 := by decide

/-- 2.9 row 1: SUB 2 at slot 1, in full. -/
theorem test_sub : after (machineAt [(0, 0x05002#18 ++ 0x16001#18)] 1) =
    some { machineAt [(0, 0x05002#18 ++ 0x16001#18)] 2 with
      run := .faulted
      fault := { kind := .unimplementedOperation, op := 5, atSlot := 1, word := 0x05002 } } := by decide

/-- R171 to R195: each unimplemented OP value faults with itself, at slot 0 with S = 0 and ADDR = 0. -/
theorem test_unimplemented : ∀ c ∈ [2, 3, 4, 5, 6, 7, 8, 11, 13, 14, 15, 16, 17, 18, 19, 20, 21, 24, 25, 26, 27, 28, 29, 30, 31],
    (after (slot0 (BitVec.ofNat 18 (c * 4096)))).map (fun t => (t.run, t.ic, t.fault)) =
      some (.faulted, 1, { kind := .unimplementedOperation, op := BitVec.ofNat 5 c, atSlot := 0,
                           word := BitVec.ofNat 18 (c * 4096) }) := by decide

/-- 2.9 row 4: InvalidOpcode under the partial map. -/
theorem test_invalidOpcode : stepWith partialMap (slot0 0x3FFFF#18) =
    .next { slot0 0x3FFFF#18 with
      ic := 1, run := .faulted
      fault := { kind := .invalidOpcode, op := 31, atSlot := 0, word := 0x3FFFF } } := rfl

/-! ### Host interface and assembler -/

/-- 2.10: bits above 35 are dropped. -/
theorem test_hostReset :
    ((State.reset.hostReset (fun _ => 7#36) true [0xF000000001#64]).memRead 0,
      (State.reset.hostReset (fun _ => 7#36) true [0xF000000001#64]).ov) = (1#36, true) := by decide

/-- The placed word runs as the first instruction after reset. -/
theorem test_withFetchWord : (after (State.reset.withFetchWord 24 0x05002)).map (·.fault.op) = some 5 ∧
    (after (State.reset.withFetchWord 24 0x01064)).map (·.ic) = some 100 := by decide

/-- P1b's listing and its first two cells; `addr=N`. -/
theorem test_assemble :
    ((["R_ADD -4", "ADD -6", "STORE -10", "STOP addr=0", "FULL 100000", "FULL -250000"].mapM parseLine).bind
      (assemble defaultOpcodeMap)) = some [0xA401AA004#64, 0x00002C00A, 0x0000186A0, 0x80003D090] := by decide

/-- P5's listing, which ends in data, has a last cell with a high half of 0; V-SRC-7's, which ends in an
instruction, has the blank there. -/
theorem test_assemble_last_cell :
    ((["R_ADD 2", "SUB 2", "HALF 9"].mapM parseLine).bind (assemble defaultOpcodeMap)) =
      some [0x14008A002#64, 0x000000009] ∧
    ((["R_ADD 4", "ADD 6", "STORE 10"].mapM parseLine).bind (assemble defaultOpcodeMap)) =
      some [0x24018A004#64, 0xFFFFCC00A] := by decide

/-- FULL at an odd slot, and an address above 4095, are refused. -/
theorem test_assemble_refuses : assemble defaultOpcodeMap [.blank, .full 3] = none ∧ parseLine "TR 4096" = none ∧
    parseLine "HALT 0" = none := by decide

/-! ### Witnesses: the hypotheses of the statements can be met -/

/-- If a step executes one instruction it executes no other. -/
theorem not_executes {m : OpcodeMap} {s : State} {i j : Instr} (h : Executes m s i) (hne : i ≠ j) :
    ¬ Executes m s j := fun k => hne (Except.ok.inj (h.2.symm.trans k.2))

/-- A running TR to its own slot (2.8), STOP to its own slot, and a running A_LEFT at the last slot. -/
def trSelf : State := slot0 0x01000#18
def stopSelf : State := slot0 0x00000#18
def lastSlot : State := machineAt [(2047, 0x16000#18 ++ 0#18)] 4095
/-- STORE 1 with the accumulator holding STOP 100 (like P3), and STORE -1. -/
def storeNext : State := loaded [(0, 0x0C001#36)] 0 false 100 true
def storeFull : State := loaded [(0, 0x2C001#36)] 0 true 100 true
def addSelf : State := slot0 0x29000#18
def subState : State := slot0 0x05002#18
def haltedState : State := { machineAt [] 0 with run := .halted }
def faultedState : State :=
  { machineAt [(0, 0x05002#36)] 1 with
    run := .faulted, fault := { kind := .unimplementedOperation, op := 5, atSlot := 0, word := 0x05002 } }

theorem trSelf_executes : Executes defaultOpcodeMap trSelf (.tr false 0) := ⟨rfl, rfl⟩
theorem stopSelf_executes : Executes defaultOpcodeMap stopSelf (.stop false 0) := ⟨rfl, rfl⟩
theorem lastSlot_executes : Executes defaultOpcodeMap lastSlot (.aLeft false 0) := ⟨rfl, rfl⟩
theorem storeNext_executes : Executes defaultOpcodeMap storeNext (.store false 1) := ⟨rfl, rfl⟩
theorem storeFull_executes : Executes defaultOpcodeMap storeFull (.store true 1) := ⟨rfl, rfl⟩
theorem addSelf_executes : Executes defaultOpcodeMap addSelf (.add true 0) := ⟨rfl, rfl⟩
theorem subState_executes : Executes defaultOpcodeMap subState (.sub false 2) := ⟨rfl, rfl⟩

theorem witness_HalfWordCodec : halfOf 0x000020000#36 false = 0x20000#18 ∧ halfOf 0x800000000#36 true = 0x20000#18 ∧
    0x3FFFF = (0x00003FFFF#36).toNat / 1 % 2 ^ 18 ∧ 0x1FFFF = (0x7FFFC0005#36).toNat / 2 ^ 18 % 2 ^ 18 := by decide
theorem witness_CodecRoundTrips : (-(2 ^ 35 - 1) : Int).natAbs ≤ 2 ^ 35 - 1 ∧ (-(2 ^ 17 - 1) : Int).natAbs ≤ 2 ^ 17 - 1 ∧
    (0x800000001#36 ≠ 0x800000000#36) ∧ halfOf 0x80001FFFF#36 false ≠ 0x20000#18 ∧
    halfOf 0x800000005#36 true = 0x20000#18 := by decide
theorem witness_DecodeReadsTheFields : (31#5).toNat = (0x3FFFF#18).toNat / 2 ^ 12 % 2 ^ 5 ∧
    defaultOpcodeMap 31#5 = some .copy ∧ partialMap 31#5 = none := by decide
theorem witness_DecodeEncodeInverse : (Instr.rAdd true 4095).wellFormed defaultOpcodeMap = true ∧
    encode defaultOpcodeMap (.rAdd true 4095) = some 0x2AFFF#18 ∧ defaultOpcodeMap.injective = true ∧
    decode defaultOpcodeMap 0x2AFFF#18 = .ok (.rAdd true 4095) ∧ defaultOpcodeMap.codeOf .rAdd = some 10#5 := by decide
theorem witness_PackedListStandsInOrder :
    packInstructions defaultOpcodeMap [.rAdd false 4, .add false 6, .store false 10] =
      some [0x24018A004#36, 0xFFFFCC00A#36] ∧ ([0x24018A004#36, 0xFFFFCC00A#36].length ≤ 2048) ∧
    [Instr.rAdd false 4, .add false 6, .store false 10].length % 2 = 1 ∧
    [Instr.rAdd false 4, .add false 6, .store false 10][(2#12).toNat]? = some (.store false 10) := by decide
theorem witness_DirectivesPlaceData : 0 % 2 = 0 ∧ 1 % 2 = 1 := by decide
theorem witness_OperandWrites : storeNext.mem.wf = true ∧ (2047#11 ≠ 0#11) := by decide
theorem witness_FetchSelectsTheHalf : (2047#11).toNat = (4095#12).toNat / 2 ∧ (4095#12).toNat % 2 ≠ 0 ∧
    (0#11).toNat = (0#12).toNat / 2 ∧ (0#12).toNat % 2 = 0 := by decide
theorem witness_FullWordAddressIgnoresParity : (4095#12).toNat % 2 = 1 ∧ (1#12).toNat % 2 = 1 := by decide
theorem witness_FullWordSeesHalfWordWrites : lastSlot.mem.wf = true := by decide
theorem witness_StoreSeenByNextFetch : storeNext.mem.wf = true ∧ Executes defaultOpcodeMap storeNext (.store false 1) ∧
    (∃ t, stepWith defaultOpcodeMap storeNext = .next t ∧ 1#12 = t.ic) ∧
    decode defaultOpcodeMap (halfField storeNext.acc.value) = .ok (.stop false 100) ∧
    Executes defaultOpcodeMap storeFull (.store true 1) ∧ (∃ t, stepWith defaultOpcodeMap storeFull = .next t) :=
  ⟨by decide, storeNext_executes, ⟨_, rfl, rfl⟩, by decide, storeFull_executes, ⟨_, rfl⟩⟩
theorem witness_StepRunsDecodedInstruction : addSelf.run = .running ∧
    decode defaultOpcodeMap (addSelf.fetchHalf addSelf.ic) = .ok (.add true 0) ∧
    decode partialMap ((slot0 0x3FFFF#18).fetchHalf 0) = .error { op := 31, word := 0x3FFFF } ∧
    haltedState.run = .halted ∧ faultedState.run = .faulted := by decide
theorem witness_CounterAdvances : Executes defaultOpcodeMap trSelf (.tr false 0) ∧
    Executes defaultOpcodeMap stopSelf (.stop false 0) ∧ lastSlot.run = .running ∧
    (∀ sg a, ¬ Executes defaultOpcodeMap lastSlot (.tr sg a) ∧ ¬ Executes defaultOpcodeMap lastSlot (.stop sg a)) ∧
    (∃ t, stepWith defaultOpcodeMap lastSlot = .next t) :=
  ⟨trSelf_executes, stopSelf_executes, rfl, fun _ _ => ⟨not_executes lastSlot_executes (fun h => nomatch h),
    not_executes lastSlot_executes (fun h => nomatch h)⟩, ⟨_, rfl⟩⟩
theorem witness_RunStateTransitions : ([1#64] : List Container).length ≤ 2048 ∧ stopSelf.run = .running ∧
    (∃ t, stepWith defaultOpcodeMap stopSelf = .next t ∧ t.run = .halted) ∧
    (∃ t, stepWith defaultOpcodeMap subState = .next t ∧ t.run = .faulted) ∧
    (∃ t, stepWith partialMap (slot0 0x3FFFF#18) = .next t ∧ t.run = .faulted) ∧
    haltedState.run = .halted ∧ faultedState.run = .faulted :=
  ⟨by decide, rfl, ⟨_, rfl, rfl⟩, ⟨_, rfl, rfl⟩, ⟨_, rfl, rfl⟩, rfl, rfl⟩
theorem witness_TransferSetsCounter : Executes defaultOpcodeMap trSelf (.tr false 0) ∧ 0#12 = trSelf.ic ∧
    Executes defaultOpcodeMap (slot0 0x21001#18) (.tr true 1) ∧ 1#12 = (slot0 0x21001#18).ic + 1#12 :=
  ⟨trSelf_executes, rfl, ⟨rfl, rfl⟩, rfl⟩
theorem witness_StopHaltsAtAddress : Executes defaultOpcodeMap stopSelf (.stop false 0) ∧ 0#12 = stopSelf.ic :=
  ⟨stopSelf_executes, rfl⟩
theorem witness_AccumulatorPrimitives : 35 ≤ 35 ∧ (-2 ^ 35 : Int) < 0 ∧ (-2 ^ 35 : Int) % 2 ^ 35 = 0 := by decide
theorem witness_ResetAddLoadsOperand :
    (0 : Int) = (machineAt [(0, 0x0A002#36), (1, 0x20000#36)] 0).readOperand (resolve false 2) ∧
    Executes defaultOpcodeMap (machineAt [(0, 0x0A002#36), (1, 0x20000#36)] 0) (.rAdd false 2) :=
  ⟨by decide, rfl, rfl⟩
theorem witness_AddSumsAndFlags : Executes defaultOpcodeMap addSelf (.add true 0) ∧
    (167936 : Int) = (if addSelf.acc.sign then -(addSelf.acc.mag.toNat : Int) else addSelf.acc.mag.toNat) +
      addSelf.readOperand (resolve true 0) ∧
    167936#35 = BitVec.ofNat 35 ((167936 : Int).natAbs % 2 ^ 35) := ⟨addSelf_executes, by decide, by decide⟩
theorem witness_AddIntegerLaws : ((2 ^ 35 - 1 : Int)).natAbs ≤ 2 ^ 35 - 1 ∧
    2 ^ 35 ≤ ((loaded [] 0 false (2 ^ 35 - 1) false).acc.value + (2 ^ 35 - 1)).natAbs ∧
    ((loaded [] 0 true 5 false).acc.value + 5 = 0) ∧
    ((loaded [] 0 true (2 ^ 35 - 1) false).acc.value + (-1) = -2 ^ 35) ∧
    ((loaded [] 0 false 5 false).acc.value + 7).natAbs ≤ 2 ^ 35 - 1 := by decide
theorem witness_MinusZeroActsAsZero : (loaded [] 0 true 0 false).acc = { sign := true, mag := 0#35 } ∧
    (loaded [] 0 true 0 false).mem.wf = true ∧
    (∃ t, exec (.rAdd true 0) (loaded [] 0 true 0 false) = .next t) ∧
    (∃ t, exec (.store true 0) (loaded [] 0 true 0 false) = .next t) ∧
    (∃ t, exec (.store false 0) (loaded [] 0 true 0 false) = .next t) :=
  ⟨rfl, rfl, ⟨_, rfl⟩, ⟨_, rfl⟩, ⟨_, rfl⟩⟩
theorem witness_StoreWritesAccumulator : storeNext.mem.wf = true ∧ (loaded [] 0 true 0 false).acc.mag = 0#35 ∧
    (2#12).toNat / 2 ≠ (1#12).toNat / 2 ∧ (0#12 ≠ 1#12) ∧ Executes defaultOpcodeMap storeNext (.store false 1) ∧
    Executes defaultOpcodeMap storeFull (.store true 1) :=
  ⟨by decide, rfl, by decide, by decide, storeNext_executes, storeFull_executes⟩
theorem witness_LeftShiftMultiplies : Executes defaultOpcodeMap lastSlot (.aLeft false 0) ∧
    Executes defaultOpcodeMap (slot0 0x36023#18) (.aLeft true 35) ∧ 35 ≤ (35#12).toNat :=
  ⟨lastSlot_executes, ⟨rfl, rfl⟩, by decide⟩
theorem witness_RightShiftDivides : Executes defaultOpcodeMap (slot0 0x37000#18) (.aRight true 0) ∧
    Executes defaultOpcodeMap (slot0 0x17023#18) (.aRight false 35) ∧ 35 ≤ (35#12).toNat :=
  ⟨⟨rfl, rfl⟩, ⟨rfl, rfl⟩, by decide⟩
theorem witness_FaultActionIsPrecise : (slot0 0x3FFFF#18).run = .running ∧
    (slot0 0x3FFFF#18).fetchHalf 0 = 0x3FFFF#18 ∧ partialMap (opField 0x3FFFF#18) = none ∧
    defaultOpcodeMap (opField 0x3FFFF#18) = some .copy ∧ Op.copy.implemented = false ∧
    (∃ t, step (slot0 0x3FFFF#18) = .next t) ∧ (slot0 0x3FFFF#18).fault.kind ≠ .invalidOpcode ∧
    faultedState.run = .faulted :=
  ⟨rfl, rfl, rfl, rfl, rfl, ⟨_, rfl⟩, by decide, rfl⟩
theorem witness_TransfersAndSubtractsFault : ∀ c ∈ [2#5, 3, 4, 5, 6, 7, 8, 11],
    (slot0 (packFields true c 4095)).run = .running ∧
    opField ((slot0 (packFields true c 4095)).fetchHalf (slot0 (packFields true c 4095)).ic) = c := by decide
theorem witness_MultiplierOperationsFault : ∀ c ∈ [13#5, 14, 15, 16, 17, 18, 19, 20, 21],
    (slot0 (packFields false c 1)).run = .running ∧
    opField ((slot0 (packFields false c 1)).fetchHalf (slot0 (packFields false c 1)).ic) = c := by decide
theorem witness_InputOutputOperationsFault : ∀ c ∈ [24#5, 25, 26, 27, 28, 29, 30, 31],
    (slot0 (packFields true c 4095)).run = .running ∧
    opField ((slot0 (packFields true c 4095)).fetchHalf (slot0 (packFields true c 4095)).ic) = c := by decide
theorem witness_BlankSlotFaults : (slot0 0x3FFFF#18).run = .running ∧
    (slot0 0x3FFFF#18).fetchHalf (slot0 0x3FFFF#18).ic = 0x3FFFF#18 ∧ partialMap 31#5 = none ∧
    halfOf 0xFFFFCC00A#36 true = 0x3FFFF#18 := by decide
theorem witness_FaultedIsTerminal : faultedState.run = .faulted ∧ ([] : List Container).length ≤ 2048 := by decide
theorem witness_OnlyAddWritesOverflow : Executes defaultOpcodeMap addSelf (.add true 0) ∧
    (∀ sg a, ¬ Executes defaultOpcodeMap lastSlot (.add sg a)) ∧
    (∃ t, stepWith defaultOpcodeMap lastSlot = .next t) ∧ ([] : List Container).length ≤ 2048 :=
  ⟨addSelf_executes, fun _ _ => not_executes lastSlot_executes (fun h => nomatch h), ⟨_, rfl⟩, by decide⟩
theorem witness_AccumulatorWriters : Executes defaultOpcodeMap lastSlot (.aLeft false 0) ∧
    (∃ t, stepWith defaultOpcodeMap lastSlot = .next t) ∧ (∃ t, stepWith defaultOpcodeMap storeNext = .next t) ∧
    (∀ sg a, ¬ Executes defaultOpcodeMap storeNext (.rAdd sg a) ∧ ¬ Executes defaultOpcodeMap storeNext (.add sg a) ∧
      ¬ Executes defaultOpcodeMap storeNext (.aLeft sg a) ∧ ¬ Executes defaultOpcodeMap storeNext (.aRight sg a)) :=
  ⟨lastSlot_executes, ⟨_, rfl⟩, ⟨_, rfl⟩, fun _ _ => ⟨not_executes storeNext_executes (fun h => nomatch h),
    not_executes storeNext_executes (fun h => nomatch h), not_executes storeNext_executes (fun h => nomatch h),
    not_executes storeNext_executes (fun h => nomatch h)⟩⟩
theorem witness_OnlyStoreWritesMemory : (∀ sg a, ¬ Executes defaultOpcodeMap addSelf (.store sg a)) ∧
    (∃ t, stepWith defaultOpcodeMap addSelf = .next t) :=
  ⟨fun _ _ => not_executes addSelf_executes (fun h => nomatch h), ⟨_, rfl⟩⟩
theorem witness_OnlyFaultsWriteFaultRegister :
    (∃ t, stepWith defaultOpcodeMap subState = .next t ∧ t.fault ≠ subState.fault) ∧
    ([] : List Container).length ≤ 2048 := ⟨⟨_, rfl, by decide⟩, by decide⟩
theorem witness_OverflowAndFaultAreNeverRead : ProgramAlike addSelf { addSelf with ov := true } ∧
    (∃ t, runBudget defaultOpcodeMap 1 addSelf = .next t) := ⟨⟨rfl, rfl, rfl, rfl⟩, ⟨_, rfl⟩⟩
theorem witness_HostResetLoadsImage : ([5#64] : List Container).length ≤ 2048 ∧
    ([5#64] : List Container)[(0#11).toNat]? = some 5#64 ∧ ([5#64] : List Container).length ≤ (2047#11).toNat ∧
    2048 < (List.replicate 2049 (0#64)).length :=
  ⟨by decide, by decide, by decide, by rw [List.length_replicate]; decide⟩
theorem witness_FirstFetchIsImageStart : (0x24018A004#64 :: ([] : List Container)).length ≤ 2048 ∧
    decode defaultOpcodeMap (BitVec.ofNat 18 (0x24018A004#64).toNat) = .ok (.rAdd false 4) := by decide
theorem witness_StartResumesHalted : haltedState.run = .halted ∧ addSelf.run = .running ∧ faultedState.run = .faulted ∧
    decode defaultOpcodeMap (haltedState.fetchHalf haltedState.ic) = .ok (.stop false 0) := by decide
theorem witness_SnapshotDeterminesState : lastSlot.mem.wf = true ∧ lastSlot.snapshot = lastSlot.snapshot :=
  ⟨by decide, rfl⟩
theorem witness_BudgetRunsCompose :
    (∃ t, runBudget defaultOpcodeMap 1 stopSelf = .next t ∧ t.ended = true) ∧ stopSelf.run = .running ∧
    haltedState.run = .halted ∧ faultedState.run = .faulted ∧
    (∃ t, runBudget defaultOpcodeMap 2 trSelf = .next t ∧ t.run = .running ∧
      decode defaultOpcodeMap (t.fetchHalf t.ic) = .ok (.tr false 0)) :=
  ⟨⟨_, rfl, rfl⟩, rfl, rfl, rfl, ⟨_, rfl, rfl, rfl⟩⟩
theorem witness_PlacedWordIsFetchedNext : lastSlot.mem.wf = true ∧ 0x3FFFF < 2 ^ 18 ∧ 0x3FFFF < 2 ^ 24 ∧
    decodeTableWord 24 0x3FFFF = some (.copy true 4095) := by decide
theorem witness_StepKeepsInvariant : subState.Inv ∧ (∃ t, stepWith defaultOpcodeMap subState = .next t) ∧
    faultedState.Inv := by
  refine ⟨⟨rfl, rfl⟩, ⟨_, rfl⟩, rfl, ?_⟩
  show _ ∧ _ ∧ _ ∧ _
  decide
theorem witness_HostEventsKeepInvariant : haltedState.Inv := ⟨rfl, rfl⟩

end Sys2Proof.Tests
end

/-! What a step does, as a relation of its own with one constructor per kind of outcome; and the statements
of 10_state.md about which event writes which piece of state. -/

section
namespace Sys2Proof.Machine

/-! ### Everything a step can do -/

/-- What a faulting step leaves: the advance, then R201's fault action with the fetched half-word. -/
def State.faultWith (s : State) (k : FaultKind) : State :=
  s.advance.raise k (opField (s.fetchHalf s.ic)) (s.fetchHalf s.ic)

theorem advance_raiseUnimplemented (s : State) :
    s.advance.raiseUnimplemented = s.faultWith .unimplementedOperation := by
  simp [State.raiseUnimplemented, State.faultWith]

/-- The half-word at IC makes a running machine fault, and with which kind (R201). -/
inductive RaisesFault (m : OpcodeMap) (s : State) : FaultKind → Prop where
  | invalidOpcode (hr : s.run = .running)
      (hd : decode m (s.fetchHalf s.ic) = .error { op := opField (s.fetchHalf s.ic), word := s.fetchHalf s.ic }) :
      RaisesFault m s .invalidOpcode
  | unimplementedOperation {i : Instr} (hx : Executes m s i) (hi : i.op.implemented = false) :
      RaisesFault m s .unimplementedOperation

theorem RaisesFault.running {m : OpcodeMap} {s : State} {k : FaultKind} (h : RaisesFault m s k) :
    s.run = .running := by
  cases h with
  | invalidOpcode hr _ => exact hr
  | unimplementedOperation hx _ => exact hx.1

theorem RaisesFault.kind_ne_none {m : OpcodeMap} {s : State} {k : FaultKind} (h : RaisesFault m s k) :
    k ≠ .none := by
  cases h <;> exact fun e => nomatch e

/-- The outcomes of a step (R90, R91): none in a stopped machine, the fault action, or one of the seven
implemented instructions. `stepWith_next_iff` ties it to the step. -/
inductive StepsTo (m : OpcodeMap) (s : State) : State → Prop where
  | idle (hr : s.run ≠ .running) : StepsTo m s s
  | fault {k : FaultKind} (hf : RaisesFault m s k) : StepsTo m s (s.faultWith k)
  | stop {sg : Bool} {a : Addr12} (hx : Executes m s (.stop sg a)) :
      StepsTo m s ((s.advance.setIc a).setRun .halted)
  | tr {sg : Bool} {a : Addr12} (hx : Executes m s (.tr sg a)) : StepsTo m s (s.advance.setIc a)
  | rAdd {sg : Bool} {a : Addr12} (hx : Executes m s (.rAdd sg a)) :
      StepsTo m s (s.advance.setAcc (Accumulator.ofInt (s.readOperand (resolve sg a))))
  | add {sg : Bool} {a : Addr12} (hx : Executes m s (.add sg a)) :
      StepsTo m s (s.advance.addAcc (s.readOperand (resolve sg a)))
  | store {sg : Bool} {a : Addr12} (hx : Executes m s (.store sg a)) :
      StepsTo m s (s.advance.setMem (s.writeOperand (resolve sg a) s.acc.value).mem)
  | aLeft {sg : Bool} {a : Addr12} (hx : Executes m s (.aLeft sg a)) : StepsTo m s (s.advance.shl a.toNat)
  | aRight {sg : Bool} {a : Addr12} (hx : Executes m s (.aRight sg a)) : StepsTo m s (s.advance.shr a.toNat)

/-- An executed instruction is the step: the advance, then its meaning. -/
theorem Executes.stepWith_eq {m : OpcodeMap} {s : State} {i : Instr} (hx : Executes m s i) :
    stepWith m s = exec i s.advance := stepWith_of_ok hx.1 hx.2

/-- The memory an operand write leaves depends on memory alone. -/
theorem State.writeOperand_mem_congr {s t : State} (h : s.mem = t.mem) (loc : Location) (v : Int) :
    (s.writeOperand loc v).mem = (t.writeOperand loc v).mem := by
  cases loc <;> simp [State.writeOperand, State.memRead, h]

/-- STORE after the advance writes the memory that the write before the advance gives. -/
theorem State.advance_writeOperand (s : State) (loc : Location) (v : Int) :
    s.advance.writeOperand loc v = s.advance.setMem (s.writeOperand loc v).mem := by
  cases loc <;> rfl

theorem StepsTo.of_executes {m : OpcodeMap} {s t : State} {i : Instr} (hx : Executes m s i)
    (h : exec i s.advance = .next t) : StepsTo m s t := by
  cases hi : i.op.implemented with
  | false =>
    rw [exec_unimplemented hi, advance_raiseUnimplemented] at h
    exact next_inj h ▸ .fault (.unimplementedOperation hx hi)
  | true =>
    rcases implemented_cases hi with ⟨sg, a, rfl⟩ | ⟨sg, a, rfl⟩ | ⟨sg, a, rfl⟩ | ⟨sg, a, rfl⟩ |
      ⟨sg, a, rfl⟩ | ⟨sg, a, rfl⟩ | ⟨sg, a, rfl⟩
    · exact next_inj h ▸ .stop hx
    · exact next_inj h ▸ .tr hx
    · exact next_inj h ▸ .add hx
    · exact next_inj h ▸ .rAdd hx
    · exact next_inj h ▸ State.advance_writeOperand s _ _ ▸ .store hx
    · exact next_inj h ▸ .aLeft hx
    · exact next_inj h ▸ .aRight hx

theorem StepsTo.of_stepWith {m : OpcodeMap} {s t : State} (h : stepWith m s = .next t) : StepsTo m s t := by
  rcases stepWith_cases m s with ⟨hr, hs⟩ | ⟨e, hr, hd, hs⟩ | ⟨i, hr, hd, hs⟩
  · exact next_inj (hs.symm.trans h) ▸ .idle hr
  · obtain ⟨-, rfl⟩ := decode_error hd
    exact next_inj (hs.symm.trans h) ▸ .fault (.invalidOpcode hr hd)
  · exact .of_executes ⟨hr, hd⟩ (hs.symm.trans h)

theorem RaisesFault.stepWith_eq {m : OpcodeMap} {s : State} {k : FaultKind} (h : RaisesFault m s k) :
    stepWith m s = .next (s.faultWith k) := by
  cases h with
  | invalidOpcode hr hd => exact stepWith_of_error hr hd
  | unimplementedOperation hx hi =>
    rw [hx.stepWith_eq, exec_unimplemented hi, advance_raiseUnimplemented]

theorem StepsTo.stepWith_eq {m : OpcodeMap} {s t : State} (h : StepsTo m s t) : stepWith m s = .next t := by
  cases h with
  | idle hr => exact stepWith_of_not_running hr
  | fault hf => exact hf.stepWith_eq
  | store hx => rw [← State.advance_writeOperand]; exact hx.stepWith_eq
  | stop hx | tr hx | rAdd hx | add hx | aLeft hx | aRight hx => exact hx.stepWith_eq

/-- A step answers exactly the outcomes of `StepsTo`. -/
theorem stepWith_next_iff {m : OpcodeMap} {s t : State} : stepWith m s = .next t ↔ StepsTo m s t :=
  ⟨.of_stepWith, StepsTo.stepWith_eq⟩

/-! ### What each piece of state is after a step -/

/-- Only TR and STOP keep a running machine's step from leaving IC + 1 (R93). -/
theorem StepsTo.ic_eq {m : OpcodeMap} {s t : State} (h : StepsTo m s t) (hr : s.run = .running)
    (hn : ∀ sg a, ¬ Executes m s (.tr sg a) ∧ ¬ Executes m s (.stop sg a)) : t.ic = s.ic + 1#12 := by
  cases h with
  | idle hs => exact absurd hr hs
  | stop hx => exact absurd hx (hn _ _).2
  | tr hx => exact absurd hx (hn _ _).1
  | fault _ | rAdd _ | add _ | store _ | aLeft _ | aRight _ => rfl

/-- Only ADD writes OV (R23). -/
theorem StepsTo.ov_eq {m : OpcodeMap} {s t : State} (h : StepsTo m s t)
    (hn : ∀ sg a, ¬ Executes m s (.add sg a)) : t.ov = s.ov := by
  cases h with
  | add hx => exact absurd hx (hn _ _)
  | idle _ | fault _ | stop _ | tr _ | rAdd _ | store _ | aLeft _ | aRight _ => rfl

theorem State.not_faulted_of_running {s : State} (h : s.run = .running) : s.run ≠ .faulted := by
  simp [h]

/-- A step does nothing, or leaves FAULT and does not end in Faulted, or is the fault action (R26). -/
theorem StepsTo.fault_cases {m : OpcodeMap} {s t : State} (h : StepsTo m s t) :
    t = s ∨ (s.run = .running ∧ t.run ≠ .faulted ∧ t.fault = s.fault) ∨
      ∃ k, RaisesFault m s k ∧ t = s.faultWith k := by
  cases h with
  | idle _ => exact .inl rfl
  | fault hf => exact .inr (.inr ⟨_, hf, rfl⟩)
  | stop hx => exact .inr (.inl ⟨hx.1, by simp, rfl⟩)
  | tr hx | rAdd hx | add hx | store hx | aLeft hx | aRight hx =>
    exact .inr (.inl ⟨hx.1, State.not_faulted_of_running hx.1, rfl⟩)

/-- A step keeps memory canonical. -/
theorem StepsTo.wf {m : OpcodeMap} {s t : State} (h : StepsTo m s t) (hs : s.mem.wf = true) :
    t.mem.wf = true := by
  cases h with
  | store _ => exact State.wf_writeOperand hs _ _
  | idle _ | fault _ | stop _ | tr _ | rAdd _ | add _ | aLeft _ | aRight _ => exact hs

/-! ### OV and FAULT are not read -/

theorem ProgramAlike.exists_eq {s u : State} (h : ProgramAlike s u) :
    ∃ b f, u = { s with ov := b, fault := f } := by
  obtain ⟨hmem, hacc, hic, hrun⟩ := h
  exact ⟨u.ov, u.fault, by rw [hmem, hacc, hic, hrun]⟩

/-- Another OV and FAULT do not change what a step does: the results are alike, and FAULT is the same after
it where it was before. -/
theorem StepsTo.with_ov_fault {m : OpcodeMap} {s t : State} (h : StepsTo m s t) (b : Bool) (f : FaultRecord) :
    ∃ t', StepsTo m { s with ov := b, fault := f } t' ∧ ProgramAlike t t' ∧
      (f = s.fault → t'.fault = t.fault) := by
  cases h with
  | idle hr => exact ⟨_, .idle hr, ⟨rfl, rfl, rfl, rfl⟩, id⟩
  | fault hf =>
    cases hf with
    | invalidOpcode hr hd => exact ⟨_, .fault (.invalidOpcode hr hd), ⟨rfl, rfl, rfl, rfl⟩, fun _ => rfl⟩
    | unimplementedOperation hx hi =>
      exact ⟨_, .fault (.unimplementedOperation hx hi), ⟨rfl, rfl, rfl, rfl⟩, fun _ => rfl⟩
  | stop hx => exact ⟨_, .stop hx, ⟨rfl, rfl, rfl, rfl⟩, id⟩
  | tr hx => exact ⟨_, .tr hx, ⟨rfl, rfl, rfl, rfl⟩, id⟩
  | rAdd hx => exact ⟨_, .rAdd hx, ⟨rfl, rfl, rfl, rfl⟩, id⟩
  | add hx => exact ⟨_, .add hx, ⟨rfl, rfl, rfl, rfl⟩, id⟩
  | store hx =>
    refine ⟨_, .store hx, ⟨?_, rfl, rfl, rfl⟩, id⟩
    exact State.writeOperand_mem_congr (s := s) (t := { s with ov := b, fault := f }) rfl _ _
  | aLeft hx => exact ⟨_, .aLeft hx, ⟨rfl, rfl, rfl, rfl⟩, id⟩
  | aRight hx => exact ⟨_, .aRight hx, ⟨rfl, rfl, rfl, rfl⟩, id⟩

/-- One step takes alike states to alike states. -/
theorem ProgramAlike.step {m : OpcodeMap} {s u t : State} (ha : ProgramAlike s u) (h : stepWith m s = .next t) :
    ∃ t', stepWith m u = .next t' ∧ ProgramAlike t t' := by
  obtain ⟨b, f, rfl⟩ := ha.exists_eq
  obtain ⟨t', ht', hat, -⟩ := (StepsTo.of_stepWith h).with_ov_fault b f
  exact ⟨t', ht'.stepWith_eq, hat⟩

/-- A running machine's budgeted run that answers has answered its first step. -/
theorem stepWith_of_runBudget_succ {m : OpcodeMap} {n : Nat} {s t : State} (hr : s.run = .running)
    (h : runBudget m (n + 1) s = .next t) : ∃ u, stepWith m s = .next u ∧ runBudget m n u = .next t := by
  simp only [runBudget, hr] at h
  split at h
  · next u hu => exact ⟨u, hu, h⟩
  · cases h
  · cases h

/-- A step without ADD does the same under another OV, and leaves that OV. -/
theorem stepWith_setOv {m : OpcodeMap} {s t : State} (hn : ∀ sg a, ¬ Executes m s (.add sg a))
    (h : stepWith m s = .next t) (b : Bool) :
    stepWith m { s with ov := b } = .next { t with ov := b } := by
  obtain ⟨t', ht', ha, hf⟩ := (StepsTo.of_stepWith h).with_ov_fault b s.fault
  have hov : t'.ov = b := ht'.ov_eq hn
  have htt : t' = { t with ov := b } := by
    obtain ⟨b', f', rfl⟩ := ha.exists_eq
    rw [show b' = b from hov, show f' = t.fault from hf rfl]
  exact htt ▸ ht'.stepWith_eq

/-! ### START and RESET -/

/-- START writes RUN at most. -/
theorem State.start_cases (s : State) : s.start = s ∨ s.start = s.setRun .running := by
  unfold State.start
  split
  · exact .inr rfl
  · exact .inl rfl
  · exact .inl rfl

@[simp] theorem State.start_ov (s : State) : s.start.ov = s.ov := by
  rcases s.start_cases with h | h <;> simp [h]

@[simp] theorem State.start_fault (s : State) : s.start.fault = s.fault := by
  rcases s.start_cases with h | h <;> simp [h]

/-- RESET with an image that fits (R230). -/
theorem State.hostReset_of_le {image : List Container} (h : image.length ≤ 2048) (memInit : Nat → Word36)
    (ovInit : Bool) (s : State) : s.hostReset memInit ovInit image =
      { State.reset with mem := Memory.ofCells (imageCell memInit image) 0 memCells, ov := ovInit } := if_pos h

/-- RESET refuses a longer image. -/
theorem State.hostReset_of_lt {image : List Container} (h : 2048 < image.length) (memInit : Nat → Word36)
    (ovInit : Bool) (s : State) : s.hostReset memInit ovInit image = s := if_neg (Nat.not_le.2 h)

/-- Every cell after RESET holds the image's word for it. -/
theorem State.hostReset_memRead {image : List Container} (h : image.length ≤ 2048) (memInit : Nat → Word36)
    (ovInit : Bool) (s : State) (c : CellIx) :
    (s.hostReset memInit ovInit image).memRead c = imageCell memInit image c.toNat := by
  rw [State.hostReset_of_le h]
  exact Memory.read_ofCells _ 0 memCells (by decide) (Nat.zero_le _) (by have := cell_lt c; omega)

theorem imageCell_of_getElem? {image : List Container} {c : Nat} {w : Container} (h : image[c]? = some w)
    (memInit : Nat → Word36) : imageCell memInit image c = w.setWidth 36 := by
  simp [imageCell, h]

theorem imageCell_of_length_le {image : List Container} {c : Nat} (h : image.length ≤ c)
    (memInit : Nat → Word36) : imageCell memInit image c = memInit c := by
  simp [imageCell, List.getElem?_eq_none h]

/-! ### The snapshot -/

theorem RunState.code_toNat (r : RunState) :
    r.code.toNat = match r with | .running => 0 | .halted => 1 | .faulted => 2 := by
  cases r <;> rfl

theorem FaultKind.code_toNat (k : FaultKind) :
    k.code.toNat = match k with | .none => 0 | .invalidOpcode => 1 | .unimplementedOperation => 2 := by
  cases k <;> rfl

/-- The snapshot's cell c is the machine's cell c. -/
theorem State.snapshot_mem_getElem? (s : State) (c : CellIx) :
    s.snapshot.mem[c.toNat]? = some (s.memRead c) := by
  simp [State.snapshot, State.memRead, List.getElem?_range (cell_lt c)]

/-! ### The invariant -/

theorem State.faultConsistent_of_not_faulted {s : State} (h : s.run ≠ .faulted) :
    s.faultConsistent ↔ s.fault = FaultRecord.clear := by
  unfold State.faultConsistent
  split
  · next e => exact absurd e h
  · exact Iff.rfl
  · exact Iff.rfl

/-- The fault action leaves a true record of the slot before IC (R201). -/
theorem State.faultConsistent_faultWith (s : State) {k : FaultKind} (hk : k ≠ .none) :
    (s.faultWith k).faultConsistent :=
  ⟨hk, rfl, rfl, s.advance_executingWord.symm⟩

/-- A step keeps FAULT in agreement with RUN. -/
theorem StepsTo.faultConsistent {m : OpcodeMap} {s t : State} (h : StepsTo m s t) (hs : s.faultConsistent) :
    t.faultConsistent := by
  rcases h.fault_cases with rfl | ⟨hr, ht, hf⟩ | ⟨k, hk, rfl⟩
  · exact hs
  · have hc := (State.faultConsistent_of_not_faulted (State.not_faulted_of_running hr)).1 hs
    exact (State.faultConsistent_of_not_faulted ht).2 (hf.trans hc)
  · exact s.faultConsistent_faultWith hk.kind_ne_none

/-! ### The statements -/

/-- Settles O42, by induction on the budget with `ProgramAlike` as the relation a step keeps. -/
theorem overflowAndFaultAreNeverRead : Obligations.OverflowAndFaultAreNeverRead := by
  intro m n
  induction n with
  | zero =>
    intro s t s' ha h
    exact ⟨t, rfl, next_inj h ▸ ha⟩
  | succ n ih =>
    intro s t s' ha h
    have hrun : s.run = t.run := ha.2.2.2
    by_cases hr : s.run = .running
    · obtain ⟨u, hu, hrest⟩ := stepWith_of_runBudget_succ hr h
      obtain ⟨v, hv, hauv⟩ := ha.step hu
      rw [runBudget_of_running (hrun ▸ hr) hv]
      exact ih u v s' hauv hrest
    · rw [runBudget_of_not_running hr] at h
      exact ⟨t, runBudget_of_not_running (hrun ▸ hr) _, next_inj h ▸ ha⟩

/-- Settles O52: memory by `StepsTo.wf`, FAULT by `StepsTo.faultConsistent`. -/
theorem stepKeepsInvariant : Obligations.StepKeepsInvariant := by
  intro m s t ⟨hwf, hfault⟩ h
  have hst := StepsTo.of_stepWith h
  exact ⟨hst.wf hwf, hst.faultConsistent hfault⟩

/-- Settles O19: TR and STOP by their meaning, every other step by `StepsTo.ic_eq`. -/
theorem counterAdvances : Obligations.CounterAdvances := by
  intro m s t hr h
  constructor
  · rintro sg a (hx | hx)
    · exact next_inj (h.symm.trans hx.stepWith_eq) ▸ rfl
    · exact next_inj (h.symm.trans hx.stepWith_eq) ▸ rfl
  · intro hn
    rw [(StepsTo.of_stepWith h).ic_eq hr hn]
    exact BitVec.toNat_add _ _

/-- Settles O38: ADD overwrites OV with a value that does not depend on it; no other step writes or reads
it. -/
theorem onlyAddWritesOverflow : Obligations.OnlyAddWritesOverflow := by
  refine ⟨fun m s t hn h => (StepsTo.of_stepWith h).ov_eq hn, ?_, fun m s t b hn h => stepWith_setOv hn h b,
    fun _ _ => ⟨rfl, rfl⟩, fun _ _ => ⟨rfl, rfl⟩, State.start_ov, ?_⟩
  · intro m s sg a b hx
    have hx' : Executes m { s with ov := b } (.add sg a) := hx
    rw [hx.stepWith_eq, hx'.stepWith_eq]
    rfl
  · intro memInit ov image s hlen
    rw [State.hostReset_of_le hlen]

/-- Settles O41: by `StepsTo.fault_cases` a step that changes FAULT is the fault action. -/
theorem onlyFaultsWriteFaultRegister : Obligations.OnlyFaultsWriteFaultRegister := by
  refine ⟨?_, State.start_fault, ?_⟩
  · intro m s t h hne
    rcases (StepsTo.of_stepWith h).fault_cases with rfl | ⟨-, -, hf⟩ | ⟨k, hk, rfl⟩
    · exact absurd rfl hne
    · exact absurd hf hne
    · exact ⟨hk.running, rfl, hk.kind_ne_none, by simp [State.faultWith]⟩
  · intro memInit ov image s hlen
    rw [State.hostReset_of_le hlen]
    rfl

/-- Settles O43: memory by `State.hostReset_memRead`, the registers by `State.hostReset_of_le`. -/
theorem hostResetLoadsImage : Obligations.HostResetLoadsImage := by
  refine fun memInit ovInit image s => ⟨fun hlen => ⟨?_, ?_, ?_⟩, fun h => State.hostReset_of_lt h _ _ _⟩
  · intro c w hw
    rw [State.hostReset_memRead hlen, imageCell_of_getElem? hw, BitVec.toNat_setWidth]
  · intro c hc
    rw [State.hostReset_memRead hlen, imageCell_of_length_le hc]
  · rw [State.hostReset_of_le hlen]
    exact ⟨rfl, rfl, rfl, rfl, rfl, Memory.wf_ofCells _⟩

/-- Settles O47: the registers are copied, and memory and the two codes have their own lemmas. -/
theorem snapshotReadsWholeState : Obligations.SnapshotReadsWholeState := by
  intro s
  exact ⟨rfl, rfl, rfl, rfl, by simp [State.snapshot, memCells], s.snapshot_mem_getElem?,
    RunState.code_toNat _, FaultKind.code_toNat _, rfl, rfl, rfl⟩

end Sys2Proof.Machine
end

/-! How a logical address names its cell and half, what a cell and a half-word read as after an operand
write, and the statements of 20_memory.md. -/

section
namespace Sys2Proof.Machine

/-! ### Addresses and locations -/

theorem cellOf_eq_iff {n k : Addr12} : cellOf n = cellOf k ↔ n.toNat / 2 = k.toNat / 2 := by
  rw [← cellOf_toNat, ← cellOf_toNat]
  exact BitVec.toNat_inj.symm

/-- The address below an odd one is the other half of the same cell. -/
theorem cellOf_sub_one_of_odd {a : Addr12} (h : a.toNat % 2 = 1) : cellOf (a - 1#12) = cellOf a := by
  have hle : 1#12 ≤ a := by bv_omega
  rw [cellOf_eq_iff, BitVec.toNat_sub_of_le hle, BitVec.toNat_ofNat]
  omega

/-- The cell a location lies in. -/
def Location.cell : Location → CellIx
  | .full c   => c
  | .half c _ => c

/-- An odd full-word address resolves as the address below it does (R46). -/
theorem resolve_full_sub_one_of_odd {a : Addr12} (h : a.toNat % 2 = 1) :
    resolve true (a - 1#12) = resolve true a :=
  congrArg Location.full (cellOf_sub_one_of_odd h)

/-! ### The three instructions with an operand use the resolved location -/

theorem exec_add (sg : Bool) (a : Addr12) (s : State) :
    exec (.add sg a) s = .next (s.addAcc (s.readOperand (resolve sg a))) := rfl

theorem exec_rAdd (sg : Bool) (a : Addr12) (s : State) :
    exec (.rAdd sg a) s = .next (s.clearAcc.insert (s.readOperand (resolve sg a))) := rfl

theorem exec_store (sg : Bool) (a : Addr12) (s : State) :
    exec (.store sg a) s = .next (s.writeOperand (resolve sg a) s.acc.value) := rfl

/-! ### Words as numbers -/

/-- The merged word: the new field at the selected half's place beside the kept half. -/
theorem mergeHalf_toNat (w : Word36) (p : Bool) (f : Half18) : (mergeHalf w p f).toNat =
    if p then f.toNat * 2 ^ 18 + w.toNat % 2 ^ 18 else w.toNat / 2 ^ 18 * 2 ^ 18 + f.toNat := by
  have hw := w.isLt
  cases p with
  | true => simp [mergeHalf, toNat_halves]
  | false =>
    simp only [mergeHalf, Bool.false_eq_true, if_false, toNat_halves, BitVec.extractLsb'_toNat,
      Nat.shiftRight_eq_div_pow]
    omega

/-- The field's top bit is its sign (R64). -/
theorem halfField_sign (v : Int) : (halfField v).getLsbD 17 = decide (v < 0) := by
  have h := BitVec.getLsbD_append (x := BitVec.ofBool (decide (v < 0))) (y := BitVec.ofNat 17 v.natAbs) (i := 17)
  exact h.trans (by simp)

/-- The high half's top bit is the word's sign bit (R45). -/
theorem mergeHalf_high_sign (w : Word36) (f : Half18) : (mergeHalf w true f).getLsbD 35 = f.getLsbD 17 :=
  getLsbD_halves f _ 35

/-! ### Cells and half-words after an operand write -/

/-- An operand write is one write to the location's cell. -/
theorem State.writeOperand_eq_memWrite (s : State) (loc : Location) (v : Int) :
    ∃ w, s.writeOperand loc v = s.memWrite loc.cell w := by
  cases loc <;> exact ⟨_, rfl⟩

/-- Every cell but the location's reads as before (R43). -/
theorem State.memRead_writeOperand_other {d : CellIx} {loc : Location} (h : d ≠ loc.cell) (s : State) (v : Int) :
    (s.writeOperand loc v).memRead d = s.memRead d := by
  obtain ⟨w, hw⟩ := s.writeOperand_eq_memWrite loc v
  rw [hw, State.memRead_memWrite_other h]

theorem State.memRead_writeOperand_full {s : State} (hs : s.mem.wf = true) (c : CellIx) (v : Int) :
    (s.writeOperand (.full c) v).memRead c = encodeFull v :=
  State.memRead_memWrite_same hs c _

theorem State.memRead_writeOperand_half {s : State} (hs : s.mem.wf = true) (c : CellIx) (p : Bool) (v : Int) :
    (s.writeOperand (.half c p) v).memRead c = mergeHalf (s.memRead c) p (halfField v) := by
  rw [← halfOf_encodeHalf v p]
  exact State.memRead_memWrite_same hs c _

/-- A half-word after a full-word operand write. -/
theorem State.fetchHalf_writeOperand_full {s : State} (hs : s.mem.wf = true) (a n : Addr12) (v : Int) :
    (s.writeOperand (resolve true a) v).fetchHalf n =
      if n.toNat / 2 = a.toNat / 2 then halfOf (encodeFull v) (decide (n.toNat % 2 = 1)) else s.fetchHalf n := by
  rw [← isHigh_eq]
  unfold State.fetchHalf
  split
  · next h => rw [cellOf_eq_iff.2 h]; exact congrArg (halfOf · _) (State.memRead_writeOperand_full hs _ v)
  · next h =>
    have hc : cellOf n ≠ (resolve true a).cell := fun e => h (cellOf_eq_iff.1 e)
    rw [State.memRead_writeOperand_other hc]

/-- A half-word after a half-word operand write. -/
theorem State.fetchHalf_writeOperand_half {s : State} (hs : s.mem.wf = true) (a n : Addr12) (v : Int) :
    (s.writeOperand (resolve false a) v).fetchHalf n = if n = a then halfField v else s.fetchHalf n := by
  rw [State.writeOperand_half]
  split
  · next h => rw [h, State.fetchHalf_storeHalf_same hs]
  · next h => rw [State.fetchHalf_storeHalf_other hs h]

/-! ### The statements -/

/-- Settles O16: the half-words by `State.fetchHalf_writeOperand_full` and
`State.fetchHalf_writeOperand_half`, and the next step's instruction from the one at the next slot. -/
theorem storeSeenByNextFetch : Obligations.StoreSeenByNextFetch := by
  intro m s t sg a hs hx ht
  obtain rfl : s.advance.setMem (s.writeOperand (resolve sg a) s.acc.value).mem = t :=
    next_inj ((StepsTo.store hx).stepWith_eq.symm.trans ht)
  have hfetch : ∀ n, (s.advance.setMem (s.writeOperand (resolve sg a) s.acc.value).mem).fetchHalf n =
      (s.writeOperand (resolve sg a) s.acc.value).fetchHalf n := State.fetchHalf_congr rfl
  refine ⟨fun n => (hfetch n).trans ?_, hx.1, rfl, ?_⟩
  · cases sg with
    | true => exact State.fetchHalf_writeOperand_full hs a n _
    | false => exact State.fetchHalf_writeOperand_half hs a n _
  · rintro i rfl ha hd
    refine ⟨hx.1, ?_⟩
    rw [hfetch, State.fetchHalf_writeOperand_half hs, if_pos ha.symm, hd]

/-- Settles O12: the cell by `State.memRead_writeOperand_full` and `State.memRead_writeOperand_half`, every
other cell by `State.memRead_writeOperand_other`. -/
theorem operandWrites : Obligations.OperandWrites := by
  intro s c v hs
  refine ⟨⟨State.memRead_writeOperand_full hs c v, fun d hd => State.memRead_writeOperand_other hd s v⟩,
    fun p => ⟨?_, ?_, fun d hd => State.memRead_writeOperand_other hd s v⟩,
    fun loc => ⟨?_, State.wf_writeOperand hs loc v⟩⟩
  · rw [State.memRead_writeOperand_half hs, halfOf_mergeHalf_same, halfOf_encodeHalf]
  · rw [State.memRead_writeOperand_half hs, halfOf_mergeHalf_other _ (Bool.not_ne_self p)]
  · obtain ⟨w, hw⟩ := s.writeOperand_eq_memWrite loc v
    rw [hw]
    rfl

/-- Settles O15: the cell is the merged word, read as a number and at its top bit. -/
theorem fullWordSeesHalfWordWrites : Obligations.FullWordSeesHalfWordWrites := by
  intro s c v hs
  simp only [State.memRead_writeOperand_half hs]
  exact ⟨mergeHalf_toNat _ false _, mergeHalf_toNat _ true _,
    (mergeHalf_high_sign _ _).trans (halfField_sign v)⟩

/-- Settles O13: an address's half of its cell, as a number. -/
theorem fetchSelectsTheHalf : Obligations.FetchSelectsTheHalf := by
  intro s n c hc
  have hcell : cellOf n = c := BitVec.eq_of_toNat_eq ((cellOf_toNat n).trans hc.symm)
  have hw := (s.memRead c).isLt
  rw [State.fetchHalf, hcell, isHigh_eq, halfOf_toNat]
  rcases Nat.mod_two_eq_zero_or_one n.toNat with heven | hodd
  · simp [heven]
  · simp only [hodd, decide_true, if_true, Nat.one_ne_zero, if_false]
    omega

/-- Settles O11: the values by definition, the bounds from the codec. -/
theorem operandReads : Obligations.OperandReads := by
  intro s c p
  exact ⟨rfl, rfl, Nat.le_pred_of_lt (natAbs_decodeFull_lt _), Nat.le_pred_of_lt (natAbs_decodeHalf_lt _ p)⟩

/-- Settles O14: an odd address and the one below it resolve alike, and each instruction answers. -/
theorem fullWordAddressIgnoresParity : Obligations.FullWordAddressIgnoresParity := by
  refine ⟨fun a s hodd => ?_, fun sg a s => ⟨⟨_, exec_add sg a s⟩, ⟨_, exec_rAdd sg a s⟩, ⟨_, exec_store sg a s⟩⟩⟩
  simp only [exec_add, exec_rAdd, exec_store, resolve_full_sub_one_of_odd hodd, and_self]

/-- Settles O18: a step leaves the state, takes the fault action or executes an instruction, and every
instruction answers by `exec_eq`. -/
theorem everyStepAnswers : Obligations.EveryStepAnswers := by
  refine ⟨fun m s => ?_, fun i s => ⟨_, exec_eq i s⟩⟩
  rcases stepWith_cases m s with ⟨-, h⟩ | ⟨_, -, -, h⟩ | ⟨i, -, -, h⟩
  · exact ⟨_, h⟩
  · exact ⟨_, h⟩
  · exact ⟨_, h.trans (exec_eq i s.advance)⟩

/-- Settles O10: the cell by `cellOf_toNat` and the half by `isHigh_eq`; each instruction by its own
meaning. -/
theorem logicalAddressResolves : Obligations.LogicalAddressResolves := by
  refine ⟨fun a => ⟨cellOf a, cellOf_toNat a, cell_lt _, rfl, congrArg _ (isHigh_eq a)⟩,
    fun sg a s => ⟨exec_add sg a s, exec_rAdd sg a s, exec_store sg a s⟩, fun a s => ?_⟩
  simp only [exec_eq, and_self]

end Sys2Proof.Machine
end

/-! The codecs as numbers: what a word, a field and a packed half-word read as; where a packed list's
half-words stand; and the statements of 30_encoding.md. -/

section
namespace Sys2Proof

/-! ### The fields of a half-word instruction (R67) -/

theorem signField_eq (h : Half18) : signField h = decide (2 ^ 17 ≤ h.toNat) := BitVec.msb_eq_decide h

theorem opField_toNat (h : Half18) : (opField h).toNat = h.toNat / 2 ^ 12 % 2 ^ 5 := by
  simp [opField, Nat.shiftRight_eq_div_pow]

theorem addrField_toNat (h : Half18) : (addrField h).toNat = h.toNat % 2 ^ 12 := by
  simp [addrField]

/-- A packed half-word as a number: sign, OP value and address at their places. -/
theorem packFields_toNat (s : Bool) (c : OpCode) (n : Nat) :
    (packFields s c n).toNat = (if s then 2 ^ 17 else 0) + c.toNat * 2 ^ 12 + n % 2 ^ 12 := by
  have hsign := signField_eq (packFields s c n)
  have hop := opField_toNat (packFields s c n)
  have haddr := addrField_toNat (packFields s c n)
  have hlt := (packFields s c n).isLt
  rw [packFields_sign] at hsign
  rw [packFields_op] at hop
  rw [packFields_addr, BitVec.toNat_ofNat] at haddr
  cases s with
  | true => have := of_decide_eq_true hsign.symm; simp only [if_true]; omega
  | false => have := of_decide_eq_false hsign.symm; simp only [Bool.false_eq_true, if_false]; omega

/-! ### Decode and encode (R69, R70) -/

theorem decode_of_some {m : OpcodeMap} {h : Half18} {op : Op} (e : m (opField h) = some op) :
    decode m h = .ok (Instr.make op (signField h) (addrField h)) :=
  decode_ok_iff.2 (by simpa using e)

theorem decode_of_none {m : OpcodeMap} {h : Half18} (e : m (opField h) = none) :
    decode m h = .error { op := opField h, word := h } := by
  simp only [decode, e]

/-- Under the default map every half-word decodes (R69, N2). -/
theorem decode_default_ok (h : Half18) : ∃ i, decode defaultOpcodeMap h = .ok i :=
  have ⟨_, hop⟩ := defaultOpcodeMap_total (opField h)
  ⟨_, decode_of_some hop⟩

theorem encode_of_codeOf {m : OpcodeMap} {i : Instr} {c : OpCode} (h : m.codeOf i.op = some c) :
    encode m i = some (packFields i.sign c i.addr.toNat) := by
  simp [encode, h]

/-- A half-word that an instruction encodes to is its fields packed with its OP value. -/
theorem encode_eq_some {m : OpcodeMap} {i : Instr} {h : Half18} (e : encode m i = some h) :
    ∃ c, m.codeOf i.op = some c ∧ h = packFields i.sign c i.addr.toNat := by
  obtain ⟨c, hc, rfl⟩ := Option.map_eq_some_iff.1 e
  exact ⟨c, hc, rfl⟩

/-- Decode of encode is the instruction, under every map. -/
theorem decode_of_encode {m : OpcodeMap} {i : Instr} {h : Half18} (e : encode m i = some h) :
    decode m h = .ok i := by
  obtain ⟨c, hc, rfl⟩ := encode_eq_some e
  refine decode_ok_iff.2 ⟨?_, ?_, ?_⟩
  · rw [packFields_op, OpcodeMap.map_of_codeOf hc]
  · rw [packFields_sign]
  · rw [packFields_addr, BitVec.ofNat_toNat, BitVec.setWidth_eq]

/-- An instruction that a map can encode has a half-word. -/
theorem exists_encode_of_wellFormed {m : OpcodeMap} {i : Instr} (h : i.wellFormed m = true) :
    ∃ w, encode m i = some w :=
  have ⟨_, hc⟩ := Option.isSome_iff_exists.1 h
  ⟨_, encode_of_codeOf hc⟩

/-- Encode of decode is the half-word where no operation has two OP values: the inverse then answers the
half-word's own OP field. -/
theorem encode_of_decode {m : OpcodeMap} (hm : m.injective = true) {h : Half18} {i : Instr}
    (e : decode m h = .ok i) : encode m i = some h := by
  obtain ⟨hop, hsign, haddr⟩ := decode_ok_iff.1 e
  obtain ⟨c, hc, hmc⟩ := OpcodeMap.codeOf_isSome hop
  rw [encode_of_codeOf hc, OpcodeMap.eq_of_injective hm hmc hop, hsign, haddr, packFields_fields]

theorem codeOf_default_isSome (op : Op) : (defaultOpcodeMap.codeOf op).isSome = true := by
  cases op <;> rfl

/-- Settles O5: `decode_of_encode` and, for a map with an inverse, `encode_of_decode`. -/
theorem decodeEncodeInverse : Obligations.DecodeEncodeInverse := by
  refine ⟨fun m => ⟨fun i hi => ?_, fun i h => decode_of_encode, fun hm h i => encode_of_decode hm,
    fun i c hc => ⟨OpcodeMap.map_of_codeOf hc, _, encode_of_codeOf hc, rfl⟩⟩,
    packFields_toNat, defaultOpcodeMap_injective, fun i => codeOf_default_isSome i.op, decode_default_ok⟩
  obtain ⟨h, he⟩ := exists_encode_of_wellFormed hi
  exact ⟨h, he, decode_of_encode he⟩

/-- Settles O4: by the map's answer on OP, `decode_of_some` or `decode_of_none`; the fields as numbers. -/
theorem decodeReadsTheFields : Obligations.DecodeReadsTheFields := by
  refine ⟨fun m h c hc => ?_, decode_default_ok⟩
  obtain rfl : opField h = c := BitVec.eq_of_toNat_eq ((opField_toNat h).trans hc.symm)
  refine ⟨fun op hop => ⟨_, decode_of_some hop, Instr.make_op _ _ _, ?_, ?_⟩, decode_of_none⟩
  · rw [Instr.make_sign, signField_eq]
  · rw [Instr.make_addr, addrField_toNat]

end Sys2Proof

namespace Sys2Proof.Machine

/-! ### Sign-magnitude words and fields as numbers (R61 to R65) -/

/-- The signed magnitude of a word whose top bit is the sign, from the word as a number. -/
theorem SM_sign_mag {k : Nat} (x : BitVec (k + 1)) : SM (x.getLsbD k) (x.extractLsb' 0 k).toNat =
    if x.toNat < 2 ^ k then (x.toNat : Int) else -((x.toNat - 2 ^ k : Nat) : Int) := by
  have hx : x.toNat < 2 ^ k + 2 ^ k := by have := x.isLt; omega
  have hsign : x.getLsbD k = decide (2 ^ k ≤ x.toNat) := BitVec.msb_eq_decide x
  rw [hsign, BitVec.extractLsb'_toNat, Nat.shiftRight_zero]
  by_cases h : x.toNat < 2 ^ k
  · simp [SM, h, Nat.mod_eq_of_lt h]
  · have hle := Nat.le_of_not_lt h
    have hmod : x.toNat % 2 ^ k = x.toNat - 2 ^ k := by
      rw [Nat.mod_eq_sub_mod hle, Nat.mod_eq_of_lt (by omega)]
    simp [SM, h, hle, hmod]

theorem encodeFull_toNat (v : Int) :
    (encodeFull v).toNat = (if v < 0 then 2 ^ 35 else 0) + v.natAbs % 2 ^ 35 := by
  simp only [encodeFull, toNat_sign35, BitVec.toNat_ofNat, decide_eq_true_eq]

theorem decodeFull_eq (w : Word36) : decodeFull w =
    if w.toNat < 2 ^ 35 then (w.toNat : Int) else -((w.toNat - 2 ^ 35 : Nat) : Int) := SM_sign_mag w

theorem halfField_toNat (v : Int) :
    (halfField v).toNat = (if v < 0 then 2 ^ 17 else 0) + v.natAbs % 2 ^ 17 := by
  simp only [halfField, toNat_sign17, BitVec.toNat_ofNat, decide_eq_true_eq]

theorem fieldValue_eq (f : Half18) : fieldValue f =
    if f.toNat < 2 ^ 17 then (f.toNat : Int) else -((f.toNat - 2 ^ 17 : Nat) : Int) := SM_sign_mag f

theorem encodeHalf_toNat (v : Int) (p : Bool) :
    (encodeHalf v p).toNat = (halfField v).toNat * (if p then 2 ^ 18 else 1) := by
  rw [encodeHalf, mergeHalf_toNat]
  cases p <;> simp

/-- Only the selected half of a word plays a part (R65). -/
theorem decodeHalf_of_halfOf {w : Word36} {p : Bool} {f : Half18} (h : halfOf w p = f) :
    decodeHalf w p = fieldValue f := congrArg fieldValue h

/-! ### The codec's round trips (R66) -/

theorem decodeFull_encodeFull {v : Int} (h : v.natAbs < 2 ^ 35) : decodeFull (encodeFull v) = v := by
  rw [decodeFull_eq, encodeFull_toNat, Nat.mod_eq_of_lt h]
  split_ifs <;> omega

/-- Every word but minus zero is its own value's encoding. -/
theorem encodeFull_decodeFull {w : Word36} (h : w ≠ 0x800000000#36) : encodeFull (decodeFull w) = w := by
  have hne : w.toNat ≠ 2 ^ 35 := fun e => h (BitVec.eq_of_toNat_eq e)
  have hlt := w.isLt
  apply BitVec.eq_of_toNat_eq
  rw [encodeFull_toNat, decodeFull_eq]
  split_ifs <;> omega

theorem fieldValue_halfField {v : Int} (h : v.natAbs < 2 ^ 17) : fieldValue (halfField v) = v := by
  rw [fieldValue_eq, halfField_toNat, Nat.mod_eq_of_lt h]
  split_ifs <;> omega

/-- Every field but minus zero is its own value's field. -/
theorem halfField_fieldValue {f : Half18} (h : f ≠ 0x20000#18) : halfField (fieldValue f) = f := by
  have hne : f.toNat ≠ 2 ^ 17 := fun e => h (BitVec.eq_of_toNat_eq e)
  have hlt := f.isLt
  apply BitVec.eq_of_toNat_eq
  rw [halfField_toNat, fieldValue_eq]
  split_ifs <;> omega

/-- A minus-zero field denotes 0. -/
theorem fieldValue_minusZero : fieldValue 0x20000#18 = 0 := by decide

/-- Settles O3: the four round trips of the full word and of the field, and minus zero by evaluation. -/
theorem codecRoundTrips : Obligations.CodecRoundTrips := by
  refine ⟨fun v hv => decodeFull_encodeFull (Nat.lt_of_le_pred (by decide) hv), fun v p hv => ?_,
    fun w => encodeFull_decodeFull, fun w p hw => ?_, by decide, fun w p hw => ?_⟩
  · rw [decodeHalf_of_halfOf (halfOf_encodeHalf v p)]
    exact fieldValue_halfField (Nat.lt_of_le_pred (by decide) hv)
  · rw [halfOf_encodeHalf]
    exact halfField_fieldValue hw
  · rw [halfOf_encodeHalf, decodeHalf_of_halfOf hw, fieldValue_minusZero]
    decide

/-- Settles O2: the field's number at the selected half's place, and its signed magnitude. -/
theorem halfWordCodec : Obligations.HalfWordCodec := by
  refine ⟨fun v p => ?_, fun w p f hf => ?_, fun w p hw => ?_⟩
  · rw [encodeHalf_toNat, halfField_toNat]
  · rw [hf, ← halfOf_toNat]
    exact fieldValue_eq (halfOf w p)
  · rw [decodeHalf_of_halfOf hw, fieldValue_minusZero]

/-- Settles O1: both functions as numbers, and the corner values by evaluation. -/
theorem fullWordCodec : Obligations.FullWordCodec :=
  ⟨encodeFull_toNat, decodeFull_eq, by decide, by decide, by decide⟩

/-! ### Half-words laid into cells (R74) -/

/-- The half of a cell laid out from two half-words. -/
@[simp] theorem halfOf_append (hi lo : Half18) (p : Bool) :
    halfOf (hi ++ lo : Word36) p = if p then hi else lo := by
  apply BitVec.eq_of_toNat_eq
  have hlo := lo.isLt
  have hhi := hi.isLt
  rw [halfOf_toNat, toNat_halves]
  cases p with
  | true => simp only [if_true]; omega
  | false => simp only [Bool.false_eq_true, if_false]; omega

/-- A word is the cell laid out from its two halves. -/
theorem append_halfOf (w : Word36) : (halfOf w true ++ halfOf w false : Word36) = w :=
  word_eq_of_halves (by simp) (by simp)

theorem length_packHalves (hs : List Half18) : (packHalves hs).length = (hs.length + 1) / 2 := by
  induction hs using packHalves.induct with
  | case1 => rfl
  | case2 lo => simp [packHalves]
  | case3 lo hi r ih => simp only [packHalves, List.length_cons, ih]; omega

/-- An odd list's last cell has the blank in its high half (R73). -/
theorem getLast?_packHalves_of_odd {hs : List Half18} (h : hs.length % 2 = 1) :
    ∃ w, (packHalves hs).getLast? = some w ∧ halfOf w true = blank := by
  induction hs using packHalves.induct with
  | case1 => cases h
  | case2 lo => exact ⟨blank ++ lo, rfl, by simp⟩
  | case3 lo hi r ih =>
    obtain ⟨w, hw, hblank⟩ := ih (by rw [List.length_cons, List.length_cons] at h; omega)
    exact ⟨w, by simp [packHalves, List.getLast?_cons, hw], hblank⟩

/-- Half-word n of the list stands in cell n div 2, low half for even n and high half for odd n. -/
theorem packHalves_getElem? {hs : List Half18} {n : Nat} {h : Half18} (hn : hs[n]? = some h) :
    ∃ w, (packHalves hs)[n / 2]? = some w ∧ halfOf w (decide (n % 2 = 1)) = h := by
  induction hs using packHalves.induct generalizing n with
  | case1 => simp at hn
  | case2 lo =>
    obtain ⟨rfl, rfl⟩ : n = 0 ∧ lo = h := by simpa [List.getElem?_singleton] using hn
    exact ⟨blank ++ lo, rfl, by simp⟩
  | case3 lo hi r ih =>
    match n with
    | 0 => exact ⟨hi ++ lo, rfl, by simpa using hn⟩
    | 1 => exact ⟨hi ++ lo, rfl, by simpa using hn⟩
    | n + 2 =>
      obtain ⟨w, hw, hhalf⟩ := ih (n := n) (by simpa using hn)
      exact ⟨w, by simpa [packHalves] using hw, by simpa using hhalf⟩

/-! ### Instruction lists (R74) -/

/-- The half-words of an instruction list are the instructions' encodings, one by one. -/
theorem forall₂_of_encodeAll {m : OpcodeMap} {is : List Instr} {hs : List Half18}
    (e : encodeAll m is = some hs) : List.Forall₂ (encode m · = some ·) is hs := by
  induction is generalizing hs with
  | nil => cases e; exact .nil
  | cons i is ih =>
    unfold encodeAll at e
    split at e
    · next h hs' hh hhs' => cases e; exact .cons hh (ih hhs')
    · cases e

theorem packInstructions_eq_some {m : OpcodeMap} {is : List Instr} {ws : List Word36}
    (e : packInstructions m is = some ws) :
    ∃ hs, ws = packHalves hs ∧ List.Forall₂ (encode m · = some ·) is hs := by
  obtain ⟨hs, hhs, rfl⟩ := Option.map_eq_some_iff.1 e
  exact ⟨hs, rfl, forall₂_of_encodeAll hhs⟩

theorem encode_getElem?_of_forall₂ {m : OpcodeMap} {is : List Instr} {hs : List Half18}
    (H : List.Forall₂ (encode m · = some ·) is hs) {n : Nat} {i : Instr} (hi : is[n]? = some i) :
    ∃ h, hs[n]? = some h ∧ encode m i = some h := by
  obtain ⟨hlt, rfl⟩ := List.getElem?_eq_some_iff.1 hi
  have hlt' : n < hs.length := H.length_eq ▸ hlt
  exact ⟨hs[n], List.getElem?_eq_getElem hlt', H.get hlt hlt'⟩

/-- After RESET a half-word address reads its half of the image's cell. -/
theorem State.fetchHalf_hostReset {ws : List Word36} (hlen : ws.length ≤ 2048) {n : Addr12} {w : Word36}
    (hw : ws[n.toNat / 2]? = some w) (memInit : Nat → Word36) (ov : Bool) (s : State) :
    (s.hostReset memInit ov (ws.map (BitVec.setWidth 64))).fetchHalf n =
      halfOf w (decide (n.toNat % 2 = 1)) := by
  have hcell : (ws.map (BitVec.setWidth 64))[(cellOf n).toNat]? = some (w.setWidth 64) := by
    rw [cellOf_toNat, List.getElem?_map, hw]
    rfl
  rw [State.fetchHalf, State.hostReset_memRead (by simpa using hlen), imageCell_of_getElem? hcell,
    BitVec.setWidth_setWidth_of_le _ (by decide), BitVec.setWidth_eq, isHigh_eq]

/-- Settles O8: the list's half-words by `packInstructions_eq_some`, their places by `packHalves_getElem?`
and `State.fetchHalf_hostReset`. -/
theorem packedListStandsInOrder : Obligations.PackedListStandsInOrder := by
  intro m is ws e
  obtain ⟨hs, rfl, H⟩ := packInstructions_eq_some e
  rw [H.length_eq]
  refine ⟨length_packHalves hs, getLast?_packHalves_of_odd, fun hlen memInit ov s n i hi => ?_⟩
  obtain ⟨h, hn, henc⟩ := encode_getElem?_of_forall₂ H hi
  obtain ⟨w, hw, hhalf⟩ := packHalves_getElem? hn
  rw [henc, State.fetchHalf_hostReset hlen hw, hhalf]

/-- Settles O9: BLANK, HALF and RAW by definition; FULL's two half-words are the halves of one word. -/
theorem directivesPlaceData : Obligations.DirectivesPlaceData := by
  refine fun m slot => ⟨rfl, fun v => rfl, fun x => rfl, fun v heven => ?_, fun v hodd => ?_⟩
  · exact ⟨_, _, if_pos heven, congrArg (· :: []) (append_halfOf (encodeFull v))⟩
  · exact if_neg (by omega)

/-! ### The blank (R73) -/

theorem opField_blank : opField blank = 31#5 := by decide

/-- What a step that faults at a blank slot leaves (R201). -/
theorem State.faultWith_of_blank {s : State} (hf : s.fetchHalf s.ic = blank) (k : FaultKind) : s.faultWith k =
    { s with
      ic := s.ic + 1#12
      run := .faulted
      fault := { kind := k, op := 31#5, atSlot := s.ic, word := blank } } := by
  rw [State.faultWith, hf, opField_blank, raise_advance]

/-- Under the default map the blank is COPY with S = 1 and ADDR = 4095. -/
theorem decode_default_blank : decode defaultOpcodeMap blank = .ok (.copy true 4095) := by decide

theorem fieldValue_blank : fieldValue blank = -131071 := by decide

/-- Settles O36: a blank slot raises one fault or the other (`RaisesFault`), by the map's answer on OP 31. -/
theorem blankSlotFaults : Obligations.BlankSlotFaults := by
  refine ⟨fun s hr hf => ?_, fun m s hm hr hf => ?_, fun w p hw => ?_⟩
  · have hx : Executes defaultOpcodeMap s (.copy true 4095) := ⟨hr, hf ▸ decode_default_blank⟩
    have hfault := RaisesFault.unimplementedOperation hx rfl
    exact hfault.stepWith_eq.trans (congrArg _ (State.faultWith_of_blank hf _))
  · have hop : opField (s.fetchHalf s.ic) = 31#5 := hf ▸ opField_blank
    have hfault := RaisesFault.invalidOpcode hr (decode_of_none (hop ▸ hm))
    exact hfault.stepWith_eq.trans (congrArg _ (State.faultWith_of_blank hf _))
  · rw [decodeHalf_of_halfOf hw]
    exact fieldValue_blank

end Sys2Proof.Machine
end

/-! Which events move RUN, and the statements of 40_cycle.md about the step. -/

section
namespace Sys2Proof.Machine

/-! ### RUN after a step (R96) -/

theorem StepsTo.unique {m : OpcodeMap} {s t u : State} (h : StepsTo m s t) (h' : StepsTo m s u) : t = u :=
  next_inj (h.stepWith_eq.symm.trans h'.stepWith_eq)

/-- The three ways a running machine's step leaves RUN. -/
theorem StepsTo.run_cases {m : OpcodeMap} {s t : State} (h : StepsTo m s t) (hr : s.run = .running) :
    t.run = .running ∨ (t.run = .halted ∧ ∃ sg a, Executes m s (.stop sg a)) ∨
      (t.run = .faulted ∧ ∃ k, RaisesFault m s k) := by
  cases h with
  | idle _ => exact .inl hr
  | fault hf => exact .inr (.inr ⟨rfl, _, hf⟩)
  | stop hx => exact .inr (.inl ⟨rfl, _, _, hx⟩)
  | tr _ | rAdd _ | add _ | store _ | aLeft _ | aRight _ => exact .inl hr

theorem StepsTo.halted_iff {m : OpcodeMap} {s t : State} (h : StepsTo m s t) (hr : s.run = .running) :
    t.run = .halted ↔ ∃ sg a, Executes m s (.stop sg a) := by
  constructor
  · intro ht
    rcases h.run_cases hr with hrun | ⟨-, hstop⟩ | ⟨hrun, -⟩
    · cases ht.symm.trans hrun
    · exact hstop
    · cases ht.symm.trans hrun
  · rintro ⟨sg, a, hx⟩
    exact h.unique (.stop hx) ▸ rfl

theorem StepsTo.faulted_iff {m : OpcodeMap} {s t : State} (h : StepsTo m s t) (hr : s.run = .running) :
    t.run = .faulted ↔ ∃ k, RaisesFault m s k := by
  constructor
  · intro ht
    rcases h.run_cases hr with hrun | ⟨hrun, -⟩ | ⟨-, hfault⟩
    · cases ht.symm.trans hrun
    · cases ht.symm.trans hrun
    · exact hfault
  · rintro ⟨k, hf⟩
    exact h.unique (.fault hf) ▸ rfl

/-- A running machine raises a fault where its half-word does not decode or has no handler. -/
theorem exists_raisesFault_iff {m : OpcodeMap} {s : State} (hr : s.run = .running) :
    (∃ k, RaisesFault m s k) ↔ (∃ e, decode m (s.fetchHalf s.ic) = .error e) ∨
      ∃ i, Executes m s i ∧ i.op.implemented = false := by
  constructor
  · rintro ⟨_, ⟨-, hd⟩ | ⟨hx, hi⟩⟩
    · exact .inl ⟨_, hd⟩
    · exact .inr ⟨_, hx, hi⟩
  · rintro (⟨e, hd⟩ | ⟨i, hx, hi⟩)
    · obtain ⟨-, rfl⟩ := decode_error hd
      exact ⟨_, .invalidOpcode hr hd⟩
    · exact ⟨_, .unimplementedOperation hx hi⟩

theorem stepWith_of_halted_or_faulted {s : State} (h : s.run = .halted ∨ s.run = .faulted) (m : OpcodeMap) :
    stepWith m s = .next s :=
  stepWith_of_not_running (by rcases h with h | h <;> simp [h])

/-! ### START (R242) -/

theorem State.start_of_halted {s : State} (h : s.run = .halted) : s.start = s.setRun .running := by
  simp [State.start, h]

theorem State.start_of_faulted {s : State} (h : s.run = .faulted) : s.start = s := by
  simp [State.start, h]

/-! ### The statements -/

/-- Settles O20: the step's rows by `StepsTo.halted_iff` and `StepsTo.faulted_iff`, START's and RESET's by
their equations. -/
theorem runStateTransitions : Obligations.RunStateTransitions := by
  refine ⟨fun memInit ov image s hlen => ?_, fun m s t hr h => ?_, fun s hr => ?_,
    fun m s h => stepWith_of_halted_or_faulted h m, fun s => State.start_of_faulted⟩
  · rw [State.hostReset_of_le hlen]
    rfl
  · have hst := StepsTo.of_stepWith h
    exact ⟨hst.halted_iff hr, (hst.faulted_iff hr).trans (exists_raisesFault_iff hr)⟩
  · rw [State.start_of_halted hr, State.setRun_run]

/-- Settles O17: by the decoder's answer on the half-word at IC, `stepWith_of_ok` or `stepWith_of_error`. -/
theorem stepRunsDecodedInstruction : Obligations.StepRunsDecodedInstruction := by
  refine ⟨fun m s hr => ⟨fun i hd => ?_, fun e hd => ?_, BitVec.toNat_add _ _⟩,
    fun m s h => stepWith_of_halted_or_faulted h m, fun s => rfl⟩
  · exact stepWith_of_ok hr hd
  · rw [stepWith_of_error hr hd, raise_advance]

end Sys2Proof.Machine
end

/-! What an integer leaves in the accumulator, which integers leave minus zero, and the statements of
41_alu_accumulator.md. -/

section
namespace Sys2Proof.Machine

/-! ### The accumulator an integer leaves (R111, R113) -/

/-- Minus zero: a set sign bit on a zero magnitude (R22). -/
def Accumulator.minusZero : Accumulator := { sign := true, mag := 0#35 }

theorem Accumulator.value_of_minusZero {a : Accumulator} (h : a = Accumulator.minusZero) : a.value = 0 := by
  rw [h]
  rfl

theorem Accumulator.ofInt_mag_toNat (v : Int) : (Accumulator.ofInt v).mag.toNat = v.natAbs % 2 ^ 35 :=
  BitVec.toNat_ofNat _ _

theorem Accumulator.ofInt_eq (v : Int) : Accumulator.ofInt v =
    { sign := decide (v < 0), mag := BitVec.ofNat 35 (v.natAbs % 2 ^ 35) } := by
  rw [← Accumulator.ofInt_mag_toNat, BitVec.ofNat_toNat, BitVec.setWidth_eq]
  rfl

/-- The value read back has the integer's sign and its magnitude modulo 2^35. -/
theorem Accumulator.value_ofInt (v : Int) : (Accumulator.ofInt v).value = v.sign * (v.natAbs % 2 ^ 35 : Nat) := by
  rw [Accumulator.value, Accumulator.ofInt_mag_toNat]
  rcases lt_trichotomy v 0 with h | rfl | h
  · simp [Accumulator.ofInt, SM, h, Int.sign_eq_neg_one_of_neg h]
  · rfl
  · simp [Accumulator.ofInt, SM, h.le, Int.sign_eq_one_of_pos h]

/-- An integer whose magnitude fits 35 bits is held exactly. -/
theorem Accumulator.value_ofInt_of_lt {v : Int} (h : v.natAbs < 2 ^ 35) : (Accumulator.ofInt v).value = v := by
  rw [Accumulator.value_ofInt, Nat.mod_eq_of_lt h, Int.sign_mul_natAbs]

/-- Minus zero is left exactly by the negative multiples of 2^35. -/
theorem Accumulator.ofInt_eq_minusZero_iff {v : Int} :
    Accumulator.ofInt v = Accumulator.minusZero ↔ v < 0 ∧ v % 2 ^ 35 = 0 := by
  rw [Accumulator.ofInt, Accumulator.minusZero, Accumulator.mk.injEq, decide_eq_true_eq,
    ← BitVec.toNat_inj, BitVec.toNat_ofNat]
  simp only [BitVec.toNat_ofNat, Nat.zero_mod]
  omega

/-- No integer whose magnitude fits 35 bits leaves minus zero. -/
theorem Accumulator.ofInt_ne_minusZero {v : Int} (h : v.natAbs < 2 ^ 35) :
    Accumulator.ofInt v ≠ Accumulator.minusZero := by
  rw [Ne, Accumulator.ofInt_eq_minusZero_iff]
  omega

/-- No integer whose magnitude fits 35 bits is written as a minus-zero word. -/
theorem encodeFull_ne_minusZero {v : Int} (h : v.natAbs < 2 ^ 35) : encodeFull v ≠ 0x800000000#36 := by
  intro e
  have hw : (encodeFull v).toNat = 2 ^ 35 := congrArg BitVec.toNat e
  rw [encodeFull_toNat, Nat.mod_eq_of_lt h] at hw
  split_ifs at hw <;> omega

/-! ### The sum and the flag of an add (R112) -/

theorem State.addAcc_acc (s : State) (v : Int) : (s.addAcc v).acc = Accumulator.ofInt (s.acc.value + v) := rfl

theorem State.addAcc_ov (s : State) (v : Int) : (s.addAcc v).ov = overflow s.acc.mag (s.addAcc v).acc.mag := rfl

theorem State.advance_addAcc (s : State) (v : Int) : s.advance.addAcc v = (s.addAcc v).advance := rfl

/-- The advance leaves memory, so an operand reads as before it. -/
theorem State.advance_readOperand (s : State) (loc : Location) : s.advance.readOperand loc = s.readOperand loc :=
  State.readOperand_congr rfl loc

/-- The P/Q pair of two magnitudes agrees exactly when bits 19..18 do as a two-bit number (R117). -/
theorem pqPair_eq_iff (a b : Mag35) :
    pqPair a = pqPair b ↔ a.toNat / 2 ^ 18 % 4 = b.toNat / 2 ^ 18 % 4 := by
  simp only [pqPair, pBit, qBit, Prod.mk.injEq, BitVec.getLsbD, Nat.testBit_eq_decide_div_mod_eq, decide_eq_decide]
  omega

/-! ### The shifts (R115) -/

theorem State.shl_eq (s : State) (n : Nat) : s.shl n =
    { s with acc := { sign := s.acc.sign, mag := BitVec.ofNat 35 (s.acc.mag.toNat * 2 ^ n % 2 ^ 35) } } := by
  rw [← State.shl_mag, BitVec.ofNat_toNat, BitVec.setWidth_eq]
  rfl

theorem State.shr_eq (s : State) (n : Nat) : s.shr n =
    { s with acc := { sign := s.acc.sign, mag := BitVec.ofNat 35 (s.acc.mag.toNat / 2 ^ n) } } := by
  rw [← State.shr_mag, BitVec.ofNat_toNat, BitVec.setWidth_eq]
  rfl

theorem State.shl_mag_of_le (s : State) {n : Nat} (h : 35 ≤ n) : (s.shl n).acc.mag = 0#35 :=
  BitVec.eq_of_toNat_eq ((s.shl_mag n).trans (shl_out _ h))

theorem State.shr_mag_of_le (s : State) {n : Nat} (h : 35 ≤ n) : (s.shr n).acc.mag = 0#35 :=
  BitVec.eq_of_toNat_eq ((s.shr_mag n).trans (shr_out _ h))

@[simp] theorem State.shl_zero (s : State) : s.shl 0 = s := by
  have hm : (s.shl 0).acc.mag = s.acc.mag := BitVec.eq_of_toNat_eq (by
    rw [State.shl_mag, Nat.pow_zero, Nat.mul_one, Nat.mod_eq_of_lt s.acc.mag.isLt])
  exact congrArg (fun m => s.setAcc { s.acc with mag := m }) hm

@[simp] theorem State.shr_zero (s : State) : s.shr 0 = s := by
  have hm : (s.shr 0).acc.mag = s.acc.mag := BitVec.eq_of_toNat_eq (by simp [State.shr_mag])
  exact congrArg (fun m => s.setAcc { s.acc with mag := m }) hm

/-! ### The statements -/

/-- Settles O23: insert by `Accumulator.ofInt_eq`, the shifts by `State.shl_eq` and `State.shr_eq`. -/
theorem accumulatorPrimitives : Obligations.AccumulatorPrimitives :=
  ⟨fun s v => ⟨congrArg s.setAcc (Accumulator.ofInt_eq v), Accumulator.ofInt_eq_minusZero_iff⟩,
    fun _ => rfl, fun _ => rfl, fun s n => ⟨s.shl_eq n, s.shr_eq n⟩,
    fun s _ h => ⟨s.shl_mag_of_le h, s.shr_mag_of_le h⟩, fun s => ⟨s.shl_zero, s.shr_zero⟩⟩

/-- Settles O25: the sum by `Accumulator.ofInt_eq`, OV by `overflow_eq`; a step adds what the instruction
adds, since the advance leaves ACC and memory. -/
theorem addSumsAndFlags : Obligations.AddSumsAndFlags := by
  refine ⟨rfl, ?_⟩
  rintro sg a s sum mag hsum rfl ov hov
  have hadd : s.addAcc (s.readOperand (resolve sg a)) = { s with
      acc := { sign := decide (sum < 0), mag := BitVec.ofNat 35 (sum.natAbs % 2 ^ 35) }, ov := ov } := by
    have hvalue : s.acc.value + s.readOperand (resolve sg a) = sum := hsum.symm
    rw [State.addAcc_eq, hvalue, Accumulator.ofInt_eq, overflow_eq, hov]
  refine ⟨(exec_add sg a s).trans (congrArg _ hadd), fun m hx => ?_⟩
  rw [hx.stepWith_eq, exec_add, State.advance_readOperand, State.advance_addAcc, hadd]
  rfl

/-- Settles O26: the exact sum's bound from both addends', the result by `Accumulator.value_ofInt`, minus
zero by `Accumulator.ofInt_eq_minusZero_iff`. -/
theorem addIntegerLaws : Obligations.AddIntegerLaws := by
  rintro s v sum hv rfl
  have hacc := s.acc.natAbs_value_lt
  rw [State.addAcc_acc]
  refine ⟨by omega, fun h => Accumulator.value_ofInt_of_lt (by omega), fun h => ⟨?_, by omega⟩,
    fun h => by rw [h]; rfl, Accumulator.ofInt_eq_minusZero_iff.trans (by omega)⟩
  have hmod : (s.acc.value + v).natAbs % 2 ^ 35 = (s.acc.value + v).natAbs - 2 ^ 35 := by omega
  rw [Accumulator.value_ofInt, hmod, Nat.cast_sub h]
  rfl

/-- Settles O27: the flag compares the P/Q pairs, which are bits 19..18 by `pqPair_eq_iff`. -/
theorem overflowComparesTwoBits : Obligations.OverflowComparesTwoBits := by
  intro s v
  rw [State.addAcc_ov, overflow, decide_eq_decide]
  exact not_congr (pqPair_eq_iff _ _)

/-- Settles O28: minus zero's value is 0, and R_ADD's operand and the accumulator's value fit 35
bits, so neither leaves or writes a minus zero. -/
theorem minusZeroActsAsZero : Obligations.MinusZeroActsAsZero := by
  refine ⟨fun s v h => ⟨Accumulator.value_of_minusZero h, ?_⟩, fun sg a s t ht => ?_,
    fun a s t hs ht => ?_, fun a s t hs h ht => ?_⟩
  · rw [State.addAcc_acc, State.addAcc_acc, Accumulator.value_of_minusZero h]
    rfl
  · obtain rfl := next_inj ((exec_rAdd sg a s).symm.trans ht)
    exact Accumulator.ofInt_ne_minusZero (s.natAbs_readOperand_lt _)
  · obtain rfl := next_inj ((exec_store true a s).symm.trans ht)
    have hcell : (s.writeOperand (resolve true a) s.acc.value).memRead (cellOf a) = encodeFull s.acc.value :=
      State.memRead_writeOperand_full hs _ _
    rw [hcell]
    refine ⟨encodeFull_ne_minusZero s.acc.natAbs_value_lt, fun h => ?_⟩
    rw [Accumulator.value_of_minusZero h]
    decide
  · obtain rfl := next_inj ((exec_store false a s).symm.trans ht)
    rw [State.fetchHalf_writeOperand_half hs, if_pos rfl, Accumulator.value_of_minusZero h]
    decide

end Sys2Proof.Machine
end

/-! TR and STOP as steps, START after a STOP, and the statements of 42_control.md. -/

section
namespace Sys2Proof.Machine

/-! ### TR and STOP write IC over the advance (R97) -/

theorem exec_tr (sg : Bool) (a : Addr12) (s : State) : exec (.tr sg a) s = .next (s.setIc a) :=
  exec_eq (.tr sg a) s

theorem exec_stop (sg : Bool) (a : Addr12) (s : State) :
    exec (.stop sg a) s = .next ((s.setIc a).setRun .halted) := exec_eq (.stop sg a) s

/-- Setting IC discards the advance. -/
@[simp] theorem State.advance_setIc (s : State) (a : Addr12) : s.advance.setIc a = s.setIc a := rfl

theorem State.setIc_eq_self {s : State} {a : Addr12} (h : a = s.ic) : s.setIc a = s := by
  subst h
  rfl

theorem State.setIc_eq_advance {s : State} {a : Addr12} (h : a = s.ic + 1#12) : s.setIc a = s.advance :=
  congrArg s.setIc h

theorem Executes.stepWith_tr {m : OpcodeMap} {s : State} {sg : Bool} {a : Addr12}
    (hx : Executes m s (.tr sg a)) : stepWith m s = .next (s.setIc a) := by
  rw [hx.stepWith_eq, exec_tr, State.advance_setIc]

theorem Executes.stepWith_stop {m : OpcodeMap} {s : State} {sg : Bool} {a : Addr12}
    (hx : Executes m s (.stop sg a)) : stepWith m s = .next ((s.setIc a).setRun .halted) := by
  rw [hx.stepWith_eq, exec_stop, State.advance_setIc]

/-- START undoes a halt of a running machine (R242). -/
theorem State.start_setRun_halted {s : State} (hr : s.run = .running) : (s.setRun .halted).start = s := by
  rw [State.start_of_halted (s.setRun_run .halted)]
  exact congrArg (fun r => { s with run := r }) hr.symm

/-! ### The statements -/

/-- Settles O21: the step by `Executes.stepWith_tr`, its two corner cases by what setting IC to the step's own
slot and to the next one leaves. -/
theorem transferSetsCounter : Obligations.TransferSetsCounter := by
  refine ⟨rfl, exec_tr, fun m sg a s hx => ⟨hx.stepWith_tr, fun hself => ?_, fun hnext => ?_⟩⟩
  · rw [hx.stepWith_tr, State.setIc_eq_self hself]
  · rw [hx.stepWith_tr, State.setIc_eq_advance hnext]

/-- Settles O22: the step by `Executes.stepWith_stop`; START gives back the running state with IC at ADDR by
`State.start_setRun_halted`, which is the state before the step where ADDR is its own slot. -/
theorem stopHaltsAtAddress : Obligations.StopHaltsAtAddress := by
  refine ⟨rfl, by decide, exec_stop, fun m sg a s hx => ?_⟩
  have hstart : ((s.setIc a).setRun .halted).start = s.setIc a := State.start_setRun_halted hx.1
  have hhalted : ((s.setIc a).setRun .halted).run = .halted := State.setRun_run _ _
  refine ⟨hx.stepWith_stop, stepWith_of_halted_or_faulted (.inl hhalted) m, hstart, fun hself => ?_⟩
  have hresume : ((s.setIc a).setRun .halted).start = s := hstart.trans (State.setIc_eq_self hself)
  exact hresume.symm ▸ hx

end Sys2Proof.Machine
end

/-! R_ADD as an instruction and as a step, and the statement of 43_arithmetic.md on it. -/

section
namespace Sys2Proof.Machine

/-! ### The operand that R_ADD inserts (R42, R140) -/

/-- A half-word operand's magnitude fits 17 bits (R42). -/
theorem State.natAbs_readOperand_half_lt (s : State) (a : Addr12) :
    (s.readOperand (resolve false a)).natAbs < 2 ^ 17 := natAbs_decodeHalf_lt _ _

/-- An integer whose magnitude fits 35 bits leaves that magnitude. -/
theorem Accumulator.ofInt_mag_toNat_of_lt {v : Int} (h : v.natAbs < 2 ^ 35) :
    (Accumulator.ofInt v).mag.toNat = v.natAbs := by
  rw [Accumulator.ofInt_mag_toNat, Nat.mod_eq_of_lt h]

/-- The clear before the insert leaves no trace, so R_ADD replaces ACC alone (R140). -/
theorem exec_rAdd_eq_setAcc (sg : Bool) (a : Addr12) (s : State) :
    exec (.rAdd sg a) s = .next (s.setAcc (Accumulator.ofInt (s.readOperand (resolve sg a)))) := exec_rAdd sg a s

/-- A step that executes R_ADD advances IC and inserts the operand as memory held it before the step. -/
theorem Executes.stepWith_rAdd {m : OpcodeMap} {s : State} {sg : Bool} {a : Addr12}
    (hx : Executes m s (.rAdd sg a)) :
    stepWith m s = .next (s.advance.setAcc (Accumulator.ofInt (s.readOperand (resolve sg a)))) := by
  rw [hx.stepWith_eq, exec_rAdd_eq_setAcc, State.advance_readOperand]

/-! ### The statement -/

/-- Settles O24: ACC is `Accumulator.ofInt` of the operand, which holds it exactly because an operand's
magnitude fits 35 bits (`State.natAbs_readOperand_lt`). -/
theorem resetAddLoadsOperand : Obligations.ResetAddLoadsOperand := by
  refine ⟨rfl, ?_⟩
  rintro sg a s v rfl
  have hfits := s.natAbs_readOperand_lt (resolve sg a)
  have hmag := Accumulator.ofInt_mag_toNat_of_lt hfits
  refine ⟨(Accumulator.ofInt (s.readOperand (resolve sg a))).mag, hmag, exec_rAdd_eq_setAcc sg a s,
    fun m hx => hx.stepWith_rAdd, Accumulator.value_ofInt_of_lt hfits, fun hzero => ?_, fun hhalf => ?_⟩
  · rw [hzero]
    exact ⟨rfl, rfl⟩
  · rw [hmag, hhalf]
    exact s.natAbs_readOperand_half_lt a

end Sys2Proof.Machine
end

/-! The accumulator's value as a stored word and field, and the statement of 44_store.md. -/

section
namespace Sys2Proof.Machine

/-! ### The accumulator's value as it is stored (R61, R64, R150) -/

/-- A zero magnitude of either sign has the value 0. -/
theorem Accumulator.value_of_mag_zero {a : Accumulator} (h : a.mag = 0#35) : a.value = 0 := by
  rw [← Int.natAbs_eq_zero, Accumulator.natAbs_value, h]
  rfl

/-- A full word holds the whole magnitude. -/
theorem Accumulator.encodeFull_value_toNat (a : Accumulator) :
    (encodeFull a.value).toNat = (if a.value < 0 then 2 ^ 35 else 0) + a.mag.toNat := by
  rw [encodeFull_toNat, Nat.mod_eq_of_lt a.natAbs_value_lt, Accumulator.natAbs_value]

/-- A half-word holds the low 17 bits of the magnitude. -/
theorem Accumulator.halfField_value_toNat (a : Accumulator) :
    (halfField a.value).toNat = (if a.value < 0 then 2 ^ 17 else 0) + a.mag.toNat % 2 ^ 17 := by
  rw [halfField_toNat, Accumulator.natAbs_value]

/-- An operand write is its memory put in place of the old one. -/
theorem State.writeOperand_eq_setMem (s : State) (loc : Location) (v : Int) :
    s.writeOperand loc v = s.setMem (s.writeOperand loc v).mem := by
  cases loc <;> rfl

/-! ### The statement -/

/-- Settles O29: the stored cell and half-word by `Accumulator.encodeFull_value_toNat` and
`Accumulator.halfField_value_toNat`, the other half-words by `State.fetchHalf_writeOperand_full` and
`State.fetchHalf_writeOperand_half`, the other fields by `State.writeOperand_eq_setMem`. -/
theorem storeWritesAccumulator : Obligations.StoreWritesAccumulator := by
  refine ⟨rfl, fun a s hs => ⟨?full, ?half, Accumulator.value_of_mag_zero, fun m sg hx => hx.stepWith_eq⟩⟩
  case full =>
    have hcell : (s.writeOperand (resolve true a) s.acc.value).memRead (cellOf a) = encodeFull s.acc.value :=
      State.memRead_writeOperand_full hs _ _
    refine ⟨_, exec_store true a s, s.writeOperand_eq_setMem _ _, State.wf_writeOperand hs _ _, hcell, ?_,
      fun n hn => ?_⟩
    · rw [hcell, Accumulator.encodeFull_value_toNat]
    · rw [State.fetchHalf_writeOperand_full hs, if_neg hn]
  case half =>
    have hfield : (s.writeOperand (resolve false a) s.acc.value).fetchHalf a = halfField s.acc.value := by
      rw [State.fetchHalf_writeOperand_half hs, if_pos rfl]
    refine ⟨_, exec_store false a s, s.writeOperand_eq_setMem _ _, State.wf_writeOperand hs _ _, ?_, ?_,
      fun n hn => ?_⟩
    · rw [hfield, halfOf_encodeHalf]
    · rw [hfield, Accumulator.halfField_value_toNat]
    · rw [State.fetchHalf_writeOperand_half hs, if_neg hn]

end Sys2Proof.Machine
end

/-! A_LEFT and A_RIGHT as instructions and as steps, and the statements of 45_shift.md. -/

section
namespace Sys2Proof.Machine

/-! ### A shift replaces the magnitude alone (R115) -/

theorem State.shl_eq_setAcc (s : State) (n : Nat) :
    s.shl n = s.setAcc { sign := s.acc.sign, mag := (s.shl n).acc.mag } := rfl

theorem State.shr_eq_setAcc (s : State) (n : Nat) :
    s.shr n = s.setAcc { sign := s.acc.sign, mag := (s.shr n).acc.mag } := rfl

/-- The advance leaves ACC, so the shift after it gives the magnitude of the shift before it. -/
theorem State.advance_shl (s : State) (n : Nat) :
    s.advance.shl n = s.advance.setAcc { sign := s.acc.sign, mag := (s.shl n).acc.mag } := rfl

theorem State.advance_shr (s : State) (n : Nat) :
    s.advance.shr n = s.advance.setAcc { sign := s.acc.sign, mag := (s.shr n).acc.mag } := rfl

/-! ### The shifts as instructions and as steps (R160, R161) -/

theorem exec_aLeft (sg : Bool) (a : Addr12) (s : State) : exec (.aLeft sg a) s = .next (s.shl a.toNat) :=
  exec_eq (.aLeft sg a) s

theorem exec_aRight (sg : Bool) (a : Addr12) (s : State) : exec (.aRight sg a) s = .next (s.shr a.toNat) :=
  exec_eq (.aRight sg a) s

theorem Executes.stepWith_aLeft {m : OpcodeMap} {s : State} {sg : Bool} {a : Addr12}
    (hx : Executes m s (.aLeft sg a)) : stepWith m s =
      .next (s.advance.setAcc { sign := s.acc.sign, mag := (s.shl a.toNat).acc.mag }) := by
  rw [hx.stepWith_eq, exec_aLeft, State.advance_shl]

theorem Executes.stepWith_aRight {m : OpcodeMap} {s : State} {sg : Bool} {a : Addr12}
    (hx : Executes m s (.aRight sg a)) : stepWith m s =
      .next (s.advance.setAcc { sign := s.acc.sign, mag := (s.shr a.toNat).acc.mag }) := by
  rw [hx.stepWith_eq, exec_aRight, State.advance_shr]

/-! ### The statements -/

/-- Settles O30: the magnitude by `State.shl_mag`, the fields that keep by `State.shl_eq_setAcc`, the two ends of
the count by `State.shl_zero` and `State.shl_mag_of_le`. -/
theorem leftShiftMultiplies : Obligations.LeftShiftMultiplies := by
  refine ⟨rfl, fun sg a s => ⟨(s.shl a.toNat).acc.mag, s.shl_mag a.toNat, ?exec, fun m hx => hx.stepWith_aLeft,
    fun hzero => ?zero, s.shl_mag_of_le⟩⟩
  case exec => exact (exec_aLeft sg a s).trans (congrArg _ (s.shl_eq_setAcc _))
  case zero => rw [hzero, BitVec.toNat_zero, State.shl_zero]

/-- Settles O31: the magnitude by `State.shr_mag`, the fields that keep by `State.shr_eq_setAcc`, the two ends of
the count by `State.shr_zero` and `State.shr_mag_of_le`. -/
theorem rightShiftDivides : Obligations.RightShiftDivides := by
  refine ⟨rfl, fun sg a s => ⟨(s.shr a.toNat).acc.mag, s.shr_mag a.toNat, ?exec, fun m hx => hx.stepWith_aRight,
    fun hzero => ?zero, s.shr_mag_of_le⟩⟩
  case exec => exact (exec_aRight sg a s).trans (congrArg _ (s.shr_eq_setAcc _))
  case zero => rw [hzero, BitVec.toNat_zero, State.shr_zero]

end Sys2Proof.Machine
end

/-! The fault action written out, the kinds of fault the default map leaves, and the statements of
46_unimplemented.md. -/

section
namespace Sys2Proof.Machine

/-! ### The fault action (R170, R201) -/

/-- R201's fault action as an equation: FAULT, RUN and the advanced IC; nothing else changes. -/
theorem State.faultWith_eq (s : State) (k : FaultKind) : s.faultWith k =
    { s with
      ic := s.ic + 1#12
      run := .faulted
      fault := { kind := k, op := opField (s.fetchHalf s.ic), atSlot := s.ic, word := s.fetchHalf s.ic } } :=
  raise_advance s k _ _

/-- An OP value outside the map raises InvalidOpcode (R202). -/
theorem RaisesFault.of_unmapped {m : OpcodeMap} {s : State} (hr : s.run = .running)
    (hm : m (opField (s.fetchHalf s.ic)) = none) : RaisesFault m s .invalidOpcode :=
  .invalidOpcode hr (decode_of_none hm)

/-- The OP value of an operation without a handler raises UnimplementedOperation (R170, R203). -/
theorem RaisesFault.of_unimplemented {m : OpcodeMap} {s : State} {op : Op} (hr : s.run = .running)
    (hm : m (opField (s.fetchHalf s.ic)) = some op) (hop : op.implemented = false) :
    RaisesFault m s .unimplementedOperation :=
  .unimplementedOperation ⟨hr, decode_of_some hm⟩ ((congrArg _ (Instr.make_op op _ _)).trans hop)

/-- The default map is total, so InvalidOpcode cannot occur under it (R69, R202). -/
theorem RaisesFault.kind_of_default {s : State} {k : FaultKind} (h : RaisesFault defaultOpcodeMap s k) :
    k = .unimplementedOperation := by
  cases h with
  | invalidOpcode _ hd =>
    obtain ⟨i, hi⟩ := decode_default_ok (s.fetchHalf s.ic)
    cases hi.symm.trans hd
  | unimplementedOperation _ _ => rfl

/-- Settles O32: each condition's step by `RaisesFault.stepWith_eq`; under the default map a step that writes
FAULT writes UnimplementedOperation. -/
theorem faultActionIsPrecise : Obligations.FaultActionIsPrecise := by
  rintro m s h hr rfl
  refine ⟨fun hm => ?unmapped, fun op hm hop => ?unimplemented, fun t ht hk => ?default,
    fun m' t ht => stepWith_of_halted_or_faulted (.inr ht) m'⟩
  case unmapped =>
    rw [(RaisesFault.of_unmapped hr hm).stepWith_eq, State.faultWith_eq]
  case unimplemented =>
    rw [(RaisesFault.of_unimplemented hr hm hop).stepWith_eq, State.faultWith_eq]
  case default =>
    rcases (StepsTo.of_stepWith ht).fault_cases with rfl | ⟨-, -, hkept⟩ | ⟨k, hfault, rfl⟩
    · exact hk
    · exact hkept ▸ hk
    · rw [hfault.kind_of_default]
      exact fun e => nomatch e

/-! ### The operations without a handler, by rows of R68's table -/

/-- An instruction and its OP value take R170's fault action: executed alone, with the half-word at IC - 1;
as a step under the default map, whatever S and ADDR the fetched half-word has. -/
def TakesFaultAction (p : (Bool → Addr12 → Instr) × OpCode) : Prop :=
  (∀ (sg : Bool) (a : Addr12) (s : State), exec (p.1 sg a) s = .next s.raiseUnimplemented) ∧
  (∀ (s : State) (h : Half18), s.run = .running → s.fetchHalf s.ic = h → opField h = p.2 →
    decode defaultOpcodeMap h = .ok (p.1 (signField h) (addrField h)) ∧
    step s = .next { s with
      ic := s.ic + 1#12
      run := .faulted
      fault := { kind := .unimplementedOperation, op := p.2, atSlot := s.ic, word := h } })

/-- An operation without a handler takes the fault action at its OP value. -/
theorem takesFaultAction_make {op : Op} {c : OpCode} (hop : op.implemented = false)
    (hc : defaultOpcodeMap c = some op) : TakesFaultAction (Instr.make op, c) := by
  refine ⟨fun sg a s => exec_unimplemented ((congrArg _ (Instr.make_op op sg a)).trans hop) s, ?_⟩
  rintro s h hr rfl rfl
  have hfault := RaisesFault.of_unimplemented hr hc hop
  exact ⟨decode_of_some hc, hfault.stepWith_eq.trans (congrArg _ (s.faultWith_eq _))⟩

/-- Rows of R68's table without a handler, read as instructions with their OP values. -/
theorem takesFaultAction_of_rows (rows : List (Op × OpCode))
    (h : ∀ r ∈ rows, r.1.implemented = false ∧ defaultOpcodeMap r.2 = some r.1) :
    ∀ p ∈ rows.map (Prod.map Instr.make id), TakesFaultAction p := by
  rw [List.forall_mem_map]
  intro r hr
  obtain ⟨hop, hc⟩ := h r hr
  exact takesFaultAction_make hop hc

/-- Settles O33, by the rows of OP 2 to 8 and 11. -/
theorem transfersAndSubtractsFault : Obligations.TransfersAndSubtractsFault :=
  takesFaultAction_of_rows [(.trOv, 2#5), (.trPlus, 3#5), (.trZero, 4#5), (.sub, 5#5), (.rSub, 6#5),
    (.subAb, 7#5), (.noOp, 8#5), (.addAb, 11#5)] (by decide)

/-- Settles O34, by the rows of OP 13 to 21. -/
theorem multiplierOperationsFault : Obligations.MultiplierOperationsFault :=
  takesFaultAction_of_rows [(.storeA, 13#5), (.storeMq, 14#5), (.loadMq, 15#5), (.mpy, 16#5), (.mpyR, 17#5),
    (.div, 18#5), (.round, 19#5), (.lLeft, 20#5), (.lRight, 21#5)] (by decide)

/-- Settles O35, by the rows of OP 24 to 31. -/
theorem inputOutputOperationsFault : Obligations.InputOutputOperationsFault :=
  takesFaultAction_of_rows [(.read, 24#5), (.readB, 25#5), (.write, 26#5), (.writeEf, 27#5), (.rewind, 28#5),
    (.setDr, 29#5), (.sense, 30#5), (.copy, 31#5)] (by decide)

end Sys2Proof.Machine
end

/-! Runs from a state that no step changes, and the statement of 60_exceptions.md on Faulted. -/

section
namespace Sys2Proof.Machine

/-- Steps issued one after another never leave a state that the machine's step answers with itself. -/
theorem core_run_of_step_self {s : State} (h : step s = .next s) (n : Nat) :
    Host.Core.run Sys2Proof.core n s = .next s := by
  induction n with
  | zero => rfl
  | succ n ih => exact (core_run_of_next h n).trans ih

/-- Settles O37: a step by `stepWith_of_halted_or_faulted`, many steps by `core_run_of_step_self`, a budget by
`runBudget_of_not_running`, START and RESET by their equations. -/
theorem faultedIsTerminal : Obligations.FaultedIsTerminal := by
  intro s hs
  have hstep : ∀ m : OpcodeMap, stepWith m s = .next s := stepWith_of_halted_or_faulted (.inr hs)
  have hstopped : s.run ≠ .running := fun hr => State.not_faulted_of_running hr hs
  refine ⟨hstep, core_run_of_step_self (hstep defaultOpcodeMap), fun m n => runBudget_of_not_running hstopped n,
    State.start_of_faulted hs, fun memInit ov image hlen => ?reset⟩
  case reset =>
    rw [State.hostReset_of_le hlen]
    exact ⟨rfl, rfl⟩

end Sys2Proof.Machine
end

/-! START, RESET and SNAPSHOT, which pieces of state a step keeps, runs issued in parts, the placed
instruction word, and the statements of 70_reset_and_hazards.md beside the rest of 10_state.md's and
30_encoding.md's. -/

section
namespace Sys2Proof.Machine

/-! ### START (R242) -/

theorem State.start_of_not_halted {s : State} (h : s.run ≠ .halted) : s.start = s := by
  cases hr : s.run with
  | running => simp [State.start, hr]
  | halted => exact absurd hr h
  | faulted => exact State.start_of_faulted hr

/-- START keeps FAULT in agreement with RUN: Halted and Running both ask for a clear FAULT. -/
theorem State.Inv.start {s : State} (h : s.Inv) : s.start.Inv := by
  obtain ⟨hwf, hfault⟩ := h
  by_cases hr : s.run = .halted
  · have hclear := (State.faultConsistent_of_not_faulted (by simp [hr])).1 hfault
    rw [State.start_of_halted hr]
    exact ⟨hwf, hclear⟩
  · rw [State.start_of_not_halted hr]
    exact ⟨hwf, hfault⟩

/-- Settles O46: START's equations, and the step of the machine it leaves by `stepWith_of_ok`. -/
theorem startResumesHalted : Obligations.StartResumesHalted := by
  refine ⟨fun s => State.start_of_halted, fun s hr => State.start_of_not_halted ?stopped, fun m s i hr hd => ?step⟩
  case stopped => rcases hr with hr | hr <;> simp [hr]
  case step =>
    rw [State.start_of_halted hr]
    exact stepWith_of_ok (s.setRun_run .running) hd

/-! ### RESET (R230, R231) -/

/-- Settles O51. -/
theorem resetMeetsInvariant : Obligations.ResetMeetsInvariant :=
  ⟨Memory.wf_reset, (State.faultConsistent_of_not_faulted (by decide)).2 rfl⟩

/-- RESET leaves a canonical memory and a clear FAULT, or refuses the image. -/
theorem State.Inv.hostReset {s : State} (h : s.Inv) (memInit : Nat → Word36) (ovInit : Bool)
    (image : List Container) : (s.hostReset memInit ovInit image).Inv := by
  rcases Nat.lt_or_ge 2048 image.length with hlong | hfits
  · exact (State.hostReset_of_lt hlong memInit ovInit s).symm ▸ h
  · rw [State.hostReset_of_le hfits]
    exact ⟨Memory.wf_ofCells _, rfl⟩

/-- Settles O53: START by `State.Inv.start`, RESET by `State.Inv.hostReset`. -/
theorem hostEventsKeepInvariant : Obligations.HostEventsKeepInvariant :=
  fun _ h => ⟨h.start, h.hostReset⟩

/-- Slot 0 after RESET holds the low 18 bits of the image's first container. -/
theorem State.fetchHalf_zero_hostReset {image : List Container} {w : Container}
    (hlen : (w :: image).length ≤ 2048) (memInit : Nat → Word36) (ov : Bool) (s : State) :
    (s.hostReset memInit ov (w :: image)).fetchHalf 0#12 = BitVec.ofNat 18 w.toNat := by
  have hcell : (w :: image)[(cellOf 0#12).toNat]? = some w := rfl
  apply BitVec.eq_of_toNat_eq
  rw [State.fetchHalf, State.hostReset_memRead hlen, imageCell_of_getElem? hcell, isHigh_eq, halfOf_toNat,
    BitVec.toNat_setWidth, BitVec.toNat_ofNat]
  simp only [BitVec.toNat_ofNat, Nat.zero_mod, Nat.zero_ne_one, decide_false, Bool.false_eq_true, if_false]
  omega

/-- Settles O44: RESET leaves IC 0 and RUN Running, and slot 0 by `State.fetchHalf_zero_hostReset`. -/
theorem firstFetchIsImageStart : Obligations.FirstFetchIsImageStart := by
  intro m memInit ov image w s hlen
  have hic : (s.hostReset memInit ov (w :: image)).ic = 0#12 := by rw [State.hostReset_of_le hlen]; rfl
  have hrun : (s.hostReset memInit ov (w :: image)).run = .running := by rw [State.hostReset_of_le hlen]; rfl
  have hfetch : (s.hostReset memInit ov (w :: image)).fetchHalf (s.hostReset memInit ov (w :: image)).ic =
      BitVec.ofNat 18 w.toNat := by rw [hic, State.fetchHalf_zero_hostReset hlen]
  rw [hfetch]
  exact ⟨BitVec.toNat_ofNat _ _, fun i hd => ⟨hrun, (congrArg _ hfetch).trans hd⟩⟩

/-- Cells that hold what an unlisted one reads as are not listed. -/
theorem Memory.ofCells_unlisted (lo n : Nat) : Memory.ofCells (fun _ => Memory.unlisted) lo n = [] := by
  induction n generalizing lo with
  | zero => rfl
  | succ n ih => rw [Memory.ofCells, ih, Memory.cons, if_pos rfl]

/-- Settles O45: with no image every cell is MEM_INIT's 0, so `Memory.ofCells_unlisted` gives the empty list. -/
theorem resetStateIsEmptyHostReset : Obligations.ResetStateIsEmptyHostReset := by
  intro s
  have hcells : imageCell (fun _ => 0#36) [] = fun _ => Memory.unlisted := rfl
  rw [State.hostReset_of_le (Nat.zero_le _), hcells, Memory.ofCells_unlisted]
  rfl

/-! ### SNAPSHOT (R240) -/

theorem RunState.code_injective {r q : RunState} (h : r.code = q.code) : r = q := by
  cases r <;> cases q <;> simp [RunState.code] at h ⊢

theorem FaultKind.code_injective {k l : FaultKind} (h : k.code = l.code) : k = l := by
  cases k <;> cases l <;> simp [FaultKind.code] at h ⊢

/-- A canonical memory lists no cell beyond its 2048. -/
theorem Memory.read_of_memCells_le {lo : Nat} {m : Memory} (hm : m.wfFrom lo = true) {a : Nat}
    (ha : memCells ≤ a) : m.read a = Memory.unlisted := by
  induction m generalizing lo with
  | nil => rfl
  | cons e m ih =>
    obtain ⟨b, x⟩ := e
    simp only [Memory.wfFrom, Bool.and_eq_true, decide_eq_true_eq] at hm
    obtain ⟨⟨⟨-, hb⟩, -⟩, hrest⟩ := hm
    rw [Memory.read_cons_pair, if_neg (by omega)]
    exact ih hrest

/-- Two canonical memories that agree on the 2048 cells are the same list. -/
theorem Memory.ext_of_wf {m m' : Memory} (hm : m.wf = true) (hm' : m'.wf = true)
    (h : ∀ a < memCells, m.read a = m'.read a) : m = m' := by
  refine Memory.ext_of_wfFrom hm hm' fun a => ?_
  rcases Nat.lt_or_ge a memCells with ha | ha
  · exact h a ha
  · rw [Memory.read_of_memCells_le hm ha, Memory.read_of_memCells_le hm' ha]

/-- Settles O48: each register from its field of the snapshot, memory by `Memory.ext_of_wf`. -/
theorem snapshotDeterminesState : Obligations.SnapshotDeterminesState := by
  rintro ⟨mem, ⟨sign, mag⟩, ov, ic, run, ⟨kind, op, atSlot, word⟩⟩
    ⟨mem', ⟨sign', mag'⟩, ov', ic', run', ⟨kind', op', atSlot', word'⟩⟩ hwf hwf' h
  simp only [State.snapshot, Snapshot.mk.injEq] at h
  obtain ⟨rfl, rfl, rfl, rfl, hmem, hrun, hkind, rfl, rfl, rfl⟩ := h
  obtain rfl := RunState.code_injective hrun
  obtain rfl := FaultKind.code_injective hkind
  have hcells : ∀ a < memCells, mem.read a = mem'.read a := fun a ha =>
    List.map_inj_left.1 hmem a (List.mem_range.2 ha)
  obtain rfl := Memory.ext_of_wf hwf hwf' hcells
  rfl

/-! ### The writers of ACC and of memory (R22, R28, R97) -/

/-- Only R_ADD, ADD and the shifts write ACC (R22). -/
theorem StepsTo.acc_eq {m : OpcodeMap} {s t : State} (h : StepsTo m s t)
    (hn : ∀ sg a, ¬ Executes m s (.rAdd sg a) ∧ ¬ Executes m s (.add sg a) ∧ ¬ Executes m s (.aLeft sg a) ∧
      ¬ Executes m s (.aRight sg a)) : t.acc = s.acc := by
  simp only [forall_and] at hn
  obtain ⟨hrAdd, hadd, hleft, hright⟩ := hn
  cases h with
  | rAdd hx => exact absurd hx (hrAdd _ _)
  | add hx => exact absurd hx (hadd _ _)
  | aLeft hx => exact absurd hx (hleft _ _)
  | aRight hx => exact absurd hx (hright _ _)
  | idle _ | fault _ | stop _ | tr _ | store _ => rfl

/-- Only STORE writes memory. -/
theorem StepsTo.mem_eq {m : OpcodeMap} {s t : State} (h : StepsTo m s t)
    (hn : ∀ sg a, ¬ Executes m s (.store sg a)) : t.mem = s.mem := by
  cases h with
  | store hx => exact absurd hx (hn _ _)
  | idle _ | fault _ | stop _ | tr _ | rAdd _ | add _ | aLeft _ | aRight _ => rfl

/-- Settles O39: the writers by `StepsTo.acc_eq`, the sign by the shifts' own steps. -/
theorem accumulatorWriters : Obligations.AccumulatorWriters := by
  refine fun m s t h => ⟨(StepsTo.of_stepWith h).acc_eq, ?_⟩
  rintro sg a (hx | hx)
  · exact next_inj (hx.stepWith_aLeft.symm.trans h) ▸ rfl
  · exact next_inj (hx.stepWith_aRight.symm.trans h) ▸ rfl

/-- Settles O40: by `StepsTo.mem_eq`; a half-word is read from memory alone. -/
theorem onlyStoreWritesMemory : Obligations.OnlyStoreWritesMemory := by
  intro m s t hn h
  have hmem := (StepsTo.of_stepWith h).mem_eq hn
  exact ⟨hmem, State.fetchHalf_congr hmem⟩

/-! ### Runs under a budget (R241, R244) -/

/-- Every step answers a next state (log 7). -/
theorem stepWith_answers (m : OpcodeMap) (s : State) : ∃ t, stepWith m s = .next t :=
  everyStepAnswers.1 m s

theorem runBudget_answers (m : OpcodeMap) (n : Nat) (s : State) : ∃ t, runBudget m n s = .next t := by
  induction n generalizing s with
  | zero => exact ⟨s, rfl⟩
  | succ n ih =>
    by_cases hr : s.run = .running
    · obtain ⟨u, hu⟩ := stepWith_answers m s
      rw [runBudget_of_running hr hu]
      exact ih u
    · exact ⟨s, runBudget_of_not_running hr _⟩

/-- A budget issued in two parts: the second part runs from where the first leads. -/
theorem runBudget_add {m : OpcodeMap} {k : Nat} {s t : State} (h : runBudget m k s = .next t) (n : Nat) :
    runBudget m (k + n) s = runBudget m n t := by
  induction k generalizing s with
  | zero => rw [Nat.zero_add, next_inj h]
  | succ k ih =>
    by_cases hr : s.run = .running
    · obtain ⟨u, hu, hrest⟩ := stepWith_of_runBudget_succ hr h
      rw [Nat.succ_add, runBudget_of_running hr hu, ih hrest]
    · obtain rfl := next_inj ((runBudget_of_not_running hr _).symm.trans h)
      rw [runBudget_of_not_running hr, runBudget_of_not_running hr]

/-- A machine that a run leaves Running was Running under every smaller budget. -/
theorem running_of_runBudget_le {m : OpcodeMap} {k n : Nat} {s t u : State} (hk : k ≤ n)
    (hu : runBudget m k s = .next u) (ht : runBudget m n s = .next t) (hr : t.run = .running) :
    u.run = .running := by
  by_contra hstopped
  obtain ⟨d, rfl⟩ := Nat.exists_eq_add_of_le hk
  have hend : runBudget m (k + d) s = .next u :=
    (runBudget_add hu d).trans (runBudget_of_not_running hstopped d)
  exact hstopped (next_inj (hend.symm.trans ht) ▸ hr)

/-- A budget of one, issued to a running machine, is a step. -/
theorem runBudget_one_of_running {m : OpcodeMap} {s : State} (hr : s.run = .running) :
    runBudget m 1 s = stepWith m s := by
  obtain ⟨t, ht⟩ := stepWith_answers m s
  rw [runBudget_of_running hr ht, ht]
  rfl

/-- The host's run of n of the machine's steps is a run under a budget of n, since a step of a stopped
machine changes nothing. -/
theorem runBudget_default (n : Nat) (s : State) :
    runBudget defaultOpcodeMap n s = Host.Core.run Sys2Proof.core n s := by
  induction n generalizing s with
  | zero => rfl
  | succ n ih =>
    by_cases hr : s.run = .running
    · obtain ⟨t, ht⟩ := stepWith_answers defaultOpcodeMap s
      exact (runBudget_of_running hr ht n).trans ((ih t).trans (core_run_of_next ht n).symm)
    · rw [runBudget_of_not_running hr]
      exact (core_run_of_step_self (stepWith_of_not_running hr) _).symm

theorem State.ended_iff {s : State} : s.ended = true ↔ s.run ≠ .running := decide_eq_true_iff

/-- Settles O49: the recursion by `runBudget_of_running` and `runBudget_of_not_running`, the parts of a budget
by `runBudget_add`. -/
theorem budgetRunsCompose : Obligations.BudgetRunsCompose := by
  refine ⟨fun _ _ => rfl, fun m n s hr => ?next, fun m n s hr => ?stopped,
    fun m n s t ht => ⟨⟨fun hr k hk => ?smaller, fun hall => ?largest⟩, fun hr => ⟨?more, fun i => ?fetch⟩⟩,
    runBudget_default, fun m k n s t ht => runBudget_add ht n, fun m k n s t ht hend => ?ended⟩
  case next =>
    obtain ⟨t, ht⟩ := stepWith_answers m s
    exact ⟨t, ht, runBudget_of_running hr ht n⟩
  case stopped => exact runBudget_of_not_running (by rcases hr with hr | hr <;> simp [hr]) n
  case smaller =>
    obtain ⟨u, hu⟩ := runBudget_answers m k s
    exact ⟨u, hu, running_of_runBudget_le hk hu ht hr⟩
  case largest =>
    obtain ⟨u, hu, hr⟩ := hall n (Nat.le_refl n)
    exact next_inj (hu.symm.trans ht) ▸ hr
  case more => rw [runBudget_add ht, runBudget_one_of_running hr]
  case fetch => exact stepWith_of_ok hr
  case ended => rw [runBudget_add ht, runBudget_of_not_running (State.ended_iff.1 hend)]

/-! ### The placed instruction word (log 9) -/

theorem tableHalfWord_of_lt {nbits w : Nat} (hw : w < 2 ^ 18) (hn : w < 2 ^ nbits) :
    tableHalfWord nbits w = some (BitVec.ofNat 18 w) := by
  rw [tableHalfWord, Nat.mod_eq_of_lt hn, if_pos hw]

theorem State.withFetchWord_of_lt {nbits w : Nat} (hw : w < 2 ^ 18) (hn : w < 2 ^ nbits) (s : State) :
    s.withFetchWord nbits w = (s.storeHalf s.ic (BitVec.ofNat 18 w)).setRun .running := by
  simp only [State.withFetchWord, tableHalfWord_of_lt hw hn]

theorem decode_of_decodeTableWord {nbits w : Nat} {i : Instr} (hw : w < 2 ^ 18) (hn : w < 2 ^ nbits)
    (h : decodeTableWord nbits w = some i) : decode defaultOpcodeMap (BitVec.ofNat 18 w) = .ok i := by
  obtain ⟨j, hj⟩ := decode_default_ok (BitVec.ofNat 18 w)
  simp only [decodeTableWord, tableHalfWord_of_lt hw hn, hj] at h
  exact Option.some.inj h ▸ hj

@[simp] theorem State.setRun_fetchHalf (s : State) (r : RunState) (n : Addr12) :
    (s.setRun r).fetchHalf n = s.fetchHalf n := rfl

/-- Settles O50: the placing is a half-word store at IC, so the half-words by `State.fetchHalf_storeHalf_same`
and `State.fetchHalf_storeHalf_other`, and the next step by `stepWith_of_ok`. -/
theorem placedWordIsFetchedNext : Obligations.PlacedWordIsFetchedNext := by
  intro s nbits w hs hw hn
  have hfetch := State.fetchHalf_storeHalf_same hs s.ic (BitVec.ofNat 18 w)
  rw [State.withFetchWord_of_lt hw hn]
  refine ⟨rfl, hfetch, fun n hne => ?other, rfl, fun i hi => ?step⟩
  case other => rw [State.setRun_fetchHalf, State.fetchHalf_storeHalf_other hs hne]
  case step => exact stepWith_of_ok rfl ((congrArg _ hfetch).trans (decode_of_decodeTableWord hw hn hi))

end Sys2Proof.Machine

namespace Sys2Proof

/-! ### The default numbering and the spec's sample words (R68, R69) -/

theorem defaultOpcodeMap_wellFormed : defaultOpcodeMap.wellFormed = true := by
  have hmaps : defaultOpcodeMap.mapsImplemented = true :=
    List.all_eq_true.2 fun op _ => by rw [codeOf_default_isSome, Bool.or_true]
  rw [OpcodeMap.wellFormed, hmaps, defaultOpcodeMap_injective, Bool.and_self]

/-- Settles O6: the 32 rows by evaluation, the map's form by `defaultOpcodeMap_wellFormed`. -/
theorem defaultOpcodeNumbers : Obligations.DefaultOpcodeNumbers :=
  ⟨by decide, defaultOpcodeMap_wellFormed⟩

/-- Settles O7: the twelve words by evaluation. -/
theorem sampleWordsDecode : Obligations.SampleWordsDecode := by
  unfold Obligations.SampleWordsDecode
  decide

end Sys2Proof
end
